-- ==== Sys2Proof/Word.lean ====
section
/-! DEFINITION. The machine's bit-vector types (00_scope.md R5, R7) and the group of four registers A, B, C, D that
the accumulator and the working registers both have (10_state.md R30, R33). -/

namespace Sys2Proof

/-- A byte: 8 bits (R7). -/
abbrev Byte := BitVec 8

/-- A word: 32 bits (R7). -/
abbrev Word := BitVec 32

/-- A double word: 64 bits (R7). -/
abbrev DWord := BitVec 64

/-- A bus-operation word: 38 bits (30_encoding.md R100). -/
abbrev BusWord := BitVec 38

/-- Four 32-bit registers: the shape of the accumulator A, B, C, D (R30) and of the working registers a, b, c, d (R33). -/
structure Quad where
  a : Word
  b : Word
  c : Word
  d : Word
deriving DecidableEq, Repr

end Sys2Proof
end

