-- ==== Sys2Proof/Syntax.lean ====
section
/-! DEFINITION. The operations of the core as syntax: one constructor for each row of spec/opcode_table.json
(30_encoding.md R109). A field is a field of the row's encoding; `data` is DATA[31:0] where the operation ignores it or
only tests it, kept so that no bit of a bus-operation word is lost (notes/assumptions/7.md). -/

namespace Sys2Proof

inductive Instr where
  -- commands, a write of CTRL (R103)
  | cmdInit
  | cmdFinal
  | cmdClrErr
  | cmdSreset
  | cmdIllegal (data : Word)
  -- pushes (R104, R105)
  | pushW (byte0 byte1 byte2 byte3 : Byte)
  | pushB (byte : Byte)
  | pushBIllegal (data : Word)
  -- refused writes of read-only and reserved registers (R107); `sel` is the low part of WIDX
  | wrStatus (data : Word)
  | wrDigest (sel : BitVec 2) (data : Word)
  | wrLen (sel : BitVec 1) (data : Word)
  | wrRsvd10 (sel : BitVec 1) (data : Word)
  | wrRsvd12 (sel : BitVec 2) (data : Word)
  | wrHex (sel : BitVec 3) (data : Word)
  | wrRsvd24 (sel : BitVec 3) (data : Word)
  -- reads (R102)
  | rdCtrl (data : Word)
  | rdStatus (data : Word)
  | rdMsgWord (data : Word)
  | rdMsgByte (data : Word)
  | rdDigest (sel : BitVec 2) (data : Word)
  | rdLenLo (data : Word)
  | rdLenHi (data : Word)
  | rdRsvd10 (sel : BitVec 1) (data : Word)
  | rdRsvd12 (sel : BitVec 2) (data : Word)
  | rdHex (sel : BitVec 3) (data : Word)
  | rdRsvd24 (sel : BitVec 3) (data : Word)
  -- Engine steps, with no bus encoding (R109)
  | engRound
  | engCombine
deriving DecidableEq, Repr

end Sys2Proof
end

