-- ==== Sys2Proof/WellFormed.lean ====
section
/-! DEFINITION. Which terms of `Instr` are operations of the core: the catch-all rows CMD.ILLEGAL and PUSH.B.ILLEGAL
stand for the words that the legal rows of the same register leave over, and for no others (30_encoding.md R103, R105,
R108). Every other field takes every value. -/

namespace Sys2Proof

/-- DATA of a CTRL write that names a command: DATA[31:8] = 0 and CMD in 0x01..0x04 (R103). -/
def legalCommand (data : Word) : Bool := data == 1 || data == 2 || data == 3 || data == 4

/-- DATA of a MSG_BYTE write whose reserved bits DATA[31:8] are 0 (R105). -/
def legalByte (data : Word) : Bool := data.extractLsb' 8 24 == 0

/-- An operation of the core (R108). -/
def Instr.wf : Instr → Bool
  | .cmdIllegal data => !legalCommand data
  | .pushBIllegal data => !legalByte data
  | .cmdInit | .cmdFinal | .cmdClrErr | .cmdSreset => true
  | .pushW _ _ _ _ | .pushB _ => true
  | .wrStatus _ | .wrDigest _ _ | .wrLen _ _ | .wrRsvd10 _ _ | .wrRsvd12 _ _ | .wrHex _ _ | .wrRsvd24 _ _ => true
  | .rdCtrl _ | .rdStatus _ | .rdMsgWord _ | .rdMsgByte _ | .rdDigest _ _ | .rdLenLo _ | .rdLenHi _ => true
  | .rdRsvd10 _ _ | .rdRsvd12 _ _ | .rdHex _ _ | .rdRsvd24 _ _ => true
  | .engRound | .engCombine => true

end Sys2Proof
end

