-- ==== Sys2Proof/Decode.lean ====
section
/-! DEFINITION. Decoding and encoding of bus-operation words (30_encoding.md R100 to R109). The decoder is total on the
38-bit words; on bytes or numbers that are no such word it rejects by name. -/

namespace Sys2Proof

/-! ### Fields and byte lanes -/

/-- W, bit 37: 1 is a write, 0 a read (R100). -/
def opWrite (w : BusWord) : Bool := w.getLsbD 37

/-- WIDX, bits 36:32: the word index of the register (R100). -/
def opWidx (w : BusWord) : BitVec 5 := w.extractLsb' 32 5

/-- DATA, bits 31:0 (R100). -/
def opData (w : BusWord) : Word := w.extractLsb' 0 32

/-- The bus-operation word with these fields (R100). -/
def busWord (write : Bool) (widx : BitVec 5) (data : Word) : BusWord := BitVec.ofBool write ++ widx ++ data

/-- Byte lane `k` of a word, bits [8k+7:8k] (20_memory.md R75). -/
def lane (v : Word) (k : Nat) : Byte := v.extractLsb' (8 * k) 8

/-- LE32: the word of four bytes, the first in bits 7:0 (00_scope.md R8). -/
def le32 (b0 b1 b2 b3 : Byte) : Word := b3 ++ b2 ++ b1 ++ b0

/-! ### Decoding -/

/-- A CTRL write (R103): the command codes 0x01 to 0x04 with DATA[31:8] = 0, else CMD.ILLEGAL. -/
def decodeCommand (data : Word) : Instr :=
  if data = 1 then .cmdInit
  else if data = 2 then .cmdFinal
  else if data = 3 then .cmdClrErr
  else if data = 4 then .cmdSreset
  else .cmdIllegal data

/-- A MSG_BYTE write (R105): DATA[31:8] must be 0. -/
def decodePushB (data : Word) : Instr :=
  if legalByte data then .pushB (lane data 0) else .pushBIllegal data

/-- A write, W = 1, by its word index (R102, R109). -/
def decodeWrite (widx : BitVec 5) (data : Word) : Instr :=
  if widx = 0 then decodeCommand data
  else if widx = 1 then .wrStatus data
  else if widx = 2 then .pushW (lane data 0) (lane data 1) (lane data 2) (lane data 3)
  else if widx = 3 then decodePushB data
  else if widx.toNat ≤ 7 then .wrDigest (widx.extractLsb' 0 2) data
  else if widx.toNat ≤ 9 then .wrLen (widx.extractLsb' 0 1) data
  else if widx.toNat ≤ 11 then .wrRsvd10 (widx.extractLsb' 0 1) data
  else if widx.toNat ≤ 15 then .wrRsvd12 (widx.extractLsb' 0 2) data
  else if widx.toNat ≤ 23 then .wrHex (widx.extractLsb' 0 3) data
  else .wrRsvd24 (widx.extractLsb' 0 3) data

/-- A read, W = 0, by its word index (R102, R109); DATA is ignored (opcode_table.json). -/
def decodeRead (widx : BitVec 5) (data : Word) : Instr :=
  if widx = 0 then .rdCtrl data
  else if widx = 1 then .rdStatus data
  else if widx = 2 then .rdMsgWord data
  else if widx = 3 then .rdMsgByte data
  else if widx.toNat ≤ 7 then .rdDigest (widx.extractLsb' 0 2) data
  else if widx = 8 then .rdLenLo data
  else if widx = 9 then .rdLenHi data
  else if widx.toNat ≤ 11 then .rdRsvd10 (widx.extractLsb' 0 1) data
  else if widx.toNat ≤ 15 then .rdRsvd12 (widx.extractLsb' 0 2) data
  else if widx.toNat ≤ 23 then .rdHex (widx.extractLsb' 0 3) data
  else .rdRsvd24 (widx.extractLsb' 0 3) data

/-- The operation a bus-operation word stands for: W first, then WIDX, then DATA (R108). Total: every one of the 2^38
words is an operation. -/
def decode (w : BusWord) : Instr :=
  if opWrite w then decodeWrite (opWidx w) (opData w) else decodeRead (opWidx w) (opData w)

/-- Why bytes are no bus-operation word. -/
inductive DecodeError where
  /-- not the five bytes that hold 38 bits -/
  | wrongLength
  /-- one of the two bits above bit 37 is set -/
  | bitsAbove37
deriving DecidableEq, Repr

/-- The number whose bytes these are, the first byte lowest. -/
def numberOfBytes : List Byte → Nat
  | [] => 0
  | b :: bs => b.toNat + 256 * numberOfBytes bs

/-- Decoding of any bytes: five bytes, the first holding bits 7:0 (DESIGN CHOICE, notes/assumptions/9.md). -/
def decodeBytes (bs : List Byte) : Except DecodeError Instr :=
  if bs.length ≠ 5 then .error .wrongLength
  else if numberOfBytes bs < 2 ^ 38 then .ok (decode (BitVec.ofNat 38 (numberOfBytes bs)))
  else .error .bitsAbove37

/-- The bytes of a number, as many as asked for, the lowest first. -/
def bytesOfNumber : Nat → Nat → List Byte
  | 0, _ => []
  | k + 1, n => BitVec.ofNat 8 n :: bytesOfNumber k (n / 256)

/-- The operation the decoder reads from an instruction whose bits are `w`, numbered as opcode_table.json numbers them;
every bit from `nbits` up is 0. -/
def decodeTableWord (nbits w : Nat) : Option Instr :=
  if w % 2 ^ nbits < 2 ^ 40 then
    match decodeBytes (bytesOfNumber 5 (w % 2 ^ nbits)) with
    | .ok i => some i
    | .error _ => none
  else none

/-! ### Encoding -/

/-- The bus-operation word of an operation (R100, R102 to R105); the Engine steps have none (R109). -/
def encode : Instr → Option BusWord
  | .cmdInit => some (busWord true 0 1)
  | .cmdFinal => some (busWord true 0 2)
  | .cmdClrErr => some (busWord true 0 3)
  | .cmdSreset => some (busWord true 0 4)
  | .cmdIllegal data => some (busWord true 0 data)
  | .pushW byte0 byte1 byte2 byte3 => some (busWord true 2 (le32 byte0 byte1 byte2 byte3))
  | .pushB byte => some (busWord true 3 (le32 byte 0 0 0))
  | .pushBIllegal data => some (busWord true 3 data)
  | .wrStatus data => some (busWord true 1 data)
  | .wrDigest sel data => some (busWord true (1#3 ++ sel) data)
  | .wrLen sel data => some (busWord true (4#4 ++ sel) data)
  | .wrRsvd10 sel data => some (busWord true (5#4 ++ sel) data)
  | .wrRsvd12 sel data => some (busWord true (3#3 ++ sel) data)
  | .wrHex sel data => some (busWord true (2#2 ++ sel) data)
  | .wrRsvd24 sel data => some (busWord true (3#2 ++ sel) data)
  | .rdCtrl data => some (busWord false 0 data)
  | .rdStatus data => some (busWord false 1 data)
  | .rdMsgWord data => some (busWord false 2 data)
  | .rdMsgByte data => some (busWord false 3 data)
  | .rdDigest sel data => some (busWord false (1#3 ++ sel) data)
  | .rdLenLo data => some (busWord false 8 data)
  | .rdLenHi data => some (busWord false 9 data)
  | .rdRsvd10 sel data => some (busWord false (5#4 ++ sel) data)
  | .rdRsvd12 sel data => some (busWord false (3#3 ++ sel) data)
  | .rdHex sel data => some (busWord false (2#2 ++ sel) data)
  | .rdRsvd24 sel data => some (busWord false (3#2 ++ sel) data)
  | .engRound => none
  | .engCombine => none

/-! ### The opcode table as data -/

/-- A row of opcode_table.json with a bus encoding: a word is of the row when `word &&& mask = match`. -/
structure TableRow where
  pattern : BusWord
  mask : BusWord
  mnemonic : String
deriving DecidableEq, Repr

/-- The rows of the commands and the pushes, in table order. -/
def tableCommandsAndPushes : List TableRow := [
  ⟨0x2000000001, 0x3fffffffff, "CMD.INIT"⟩,
  ⟨0x2000000002, 0x3fffffffff, "CMD.FINAL"⟩,
  ⟨0x2000000003, 0x3fffffffff, "CMD.CLRERR"⟩,
  ⟨0x2000000004, 0x3fffffffff, "CMD.SRESET"⟩,
  ⟨0x2000000000, 0x3f00000000, "CMD.ILLEGAL"⟩,
  ⟨0x2200000000, 0x3f00000000, "PUSH.W"⟩,
  ⟨0x2300000000, 0x3fffffff00, "PUSH.B"⟩,
  ⟨0x2300000000, 0x3f00000000, "PUSH.B.ILLEGAL"⟩]

/-- The rows of the refused writes, in table order. -/
def tableRefusedWrites : List TableRow := [
  ⟨0x2100000000, 0x3f00000000, "WR.STATUS"⟩,
  ⟨0x2400000000, 0x3c00000000, "WR.DIGEST"⟩,
  ⟨0x2800000000, 0x3e00000000, "WR.LEN"⟩,
  ⟨0x2a00000000, 0x3e00000000, "WR.RSVD10"⟩,
  ⟨0x2c00000000, 0x3c00000000, "WR.RSVD12"⟩,
  ⟨0x3000000000, 0x3800000000, "WR.HEX"⟩,
  ⟨0x3800000000, 0x3800000000, "WR.RSVD24"⟩]

/-- The rows of the reads, in table order. -/
def tableReads : List TableRow := [
  ⟨0x0000000000, 0x3f00000000, "RD.CTRL"⟩,
  ⟨0x0100000000, 0x3f00000000, "RD.STATUS"⟩,
  ⟨0x0200000000, 0x3f00000000, "RD.MSG_WORD"⟩,
  ⟨0x0300000000, 0x3f00000000, "RD.MSG_BYTE"⟩,
  ⟨0x0400000000, 0x3c00000000, "RD.DIGEST"⟩,
  ⟨0x0800000000, 0x3f00000000, "RD.LEN_LO"⟩,
  ⟨0x0900000000, 0x3f00000000, "RD.LEN_HI"⟩,
  ⟨0x0a00000000, 0x3e00000000, "RD.RSVD10"⟩,
  ⟨0x0c00000000, 0x3c00000000, "RD.RSVD12"⟩,
  ⟨0x1000000000, 0x3800000000, "RD.HEX"⟩,
  ⟨0x1800000000, 0x3800000000, "RD.RSVD24"⟩]

/-- opcode_table.json's rows with a bus encoding, in table order (R108). -/
def opcodeTable : List TableRow := tableCommandsAndPushes ++ tableRefusedWrites ++ tableReads

/-- The first row, in table order, that a word matches (R108). -/
def tableRowOf (w : BusWord) : Option TableRow := opcodeTable.find? fun r => w &&& r.mask == r.pattern

/-- The mnemonic of an operation, as opcode_table.json spells it. -/
def Instr.mnemonic : Instr → String
  | .cmdInit => "CMD.INIT"
  | .cmdFinal => "CMD.FINAL"
  | .cmdClrErr => "CMD.CLRERR"
  | .cmdSreset => "CMD.SRESET"
  | .cmdIllegal _ => "CMD.ILLEGAL"
  | .pushW _ _ _ _ => "PUSH.W"
  | .pushB _ => "PUSH.B"
  | .pushBIllegal _ => "PUSH.B.ILLEGAL"
  | .wrStatus _ => "WR.STATUS"
  | .wrDigest _ _ => "WR.DIGEST"
  | .wrLen _ _ => "WR.LEN"
  | .wrRsvd10 _ _ => "WR.RSVD10"
  | .wrRsvd12 _ _ => "WR.RSVD12"
  | .wrHex _ _ => "WR.HEX"
  | .wrRsvd24 _ _ => "WR.RSVD24"
  | .rdCtrl _ => "RD.CTRL"
  | .rdStatus _ => "RD.STATUS"
  | .rdMsgWord _ => "RD.MSG_WORD"
  | .rdMsgByte _ => "RD.MSG_BYTE"
  | .rdDigest _ _ => "RD.DIGEST"
  | .rdLenLo _ => "RD.LEN_LO"
  | .rdLenHi _ => "RD.LEN_HI"
  | .rdRsvd10 _ _ => "RD.RSVD10"
  | .rdRsvd12 _ _ => "RD.RSVD12"
  | .rdHex _ _ => "RD.HEX"
  | .rdRsvd24 _ _ => "RD.RSVD24"
  | .engRound => "ENG.ROUND"
  | .engCombine => "ENG.COMBINE"

/-- The operations that are reads of a register: W = 0 (R100). -/
def Instr.isRead : Instr → Bool
  | .rdCtrl _ | .rdStatus _ | .rdMsgWord _ | .rdMsgByte _ | .rdDigest _ _ | .rdLenLo _ | .rdLenHi _ => true
  | .rdRsvd10 _ _ | .rdRsvd12 _ _ | .rdHex _ _ | .rdRsvd24 _ _ => true
  | .cmdInit | .cmdFinal | .cmdClrErr | .cmdSreset | .cmdIllegal _ => false
  | .pushW _ _ _ _ | .pushB _ | .pushBIllegal _ => false
  | .wrStatus _ | .wrDigest _ _ | .wrLen _ _ | .wrRsvd10 _ _ | .wrRsvd12 _ _ | .wrHex _ _ | .wrRsvd24 _ _ => false
  | .engRound | .engCombine => false

/-- The Engine's steps, which no bus operation stands for (R109). -/
def Instr.isEngineStep : Instr → Bool
  | .engRound | .engCombine => true
  | .cmdInit | .cmdFinal | .cmdClrErr | .cmdSreset | .cmdIllegal _ => false
  | .pushW _ _ _ _ | .pushB _ | .pushBIllegal _ => false
  | .wrStatus _ | .wrDigest _ _ | .wrLen _ _ | .wrRsvd10 _ _ | .wrRsvd12 _ _ | .wrHex _ _ | .wrRsvd24 _ _ => false
  | .rdCtrl _ | .rdStatus _ | .rdMsgWord _ | .rdMsgByte _ | .rdDigest _ _ | .rdLenLo _ | .rdLenHi _ => false
  | .rdRsvd10 _ _ | .rdRsvd12 _ _ | .rdHex _ _ | .rdRsvd24 _ _ => false

end Sys2Proof
end

