-- ==== Sys2Proof/Machine/Round.lean ====
section
/-! DEFINITION. The compression algorithm as pure functions: the round functions and tables, one round and one block
(42_compressor.md R180 to R188), and the ROM constants (10_state.md R31, R43). -/

namespace Sys2Proof.Machine

/-- `rotl32(x, s)` for 0 < s < 32 (R8). -/
def rotl32 (x : Word) (s : Nat) : Word := (x <<< s) ||| (x >>> (32 - s))

/-- F0: selects `c` where `b` is 1 and `d` where it is 0 (R180). -/
def f0 (b c d : Word) : Word := (b &&& c) ||| (~~~b &&& d)

/-- F1: selects `b` where `d` is 1 and `c` where it is 0 (R180). -/
def f1 (b c d : Word) : Word := (b &&& d) ||| (c &&& ~~~d)

/-- F2: parity (R180). -/
def f2 (b c d : Word) : Word := b ^^^ c ^^^ d

/-- F3 (R180). -/
def f3 (b c d : Word) : Word := c ^^^ (b ||| ~~~d)

/-- The nonlinear function of quarter `q` (R181). -/
def fOf (q : Nat) (b c d : Word) : Word :=
  match q with
  | 0 => f0 b c d
  | 1 => f1 b c d
  | 2 => f2 b c d
  | _ => f3 b c d

/-- The shift groups SG[0..3], one per quarter (R183). -/
def shiftGroups : List (List Nat) := [[7, 12, 17, 22], [5, 9, 14, 20], [4, 11, 16, 23], [6, 10, 15, 21]]

/-- `S[i]` (R183). -/
def shiftOf (i : Nat) : Nat := (shiftGroups.getD (i / 16) []).getD (i % 4) 0

/-- `g(i)`, the message-word index of round `i` (R184). -/
def wordIndexOf (i : Nat) : Nat :=
  match i / 16 with
  | 0 => i
  | 1 => (5 * i + 1) % 16
  | 2 => (3 * i + 5) % 16
  | _ => (7 * i) % 16

/-- K[0..15] of the ROM (R185). -/
def kQuarter0 : List Word := [
  0xd76aa478, 0xe8c7b756, 0x242070db, 0xc1bdceee,
  0xf57c0faf, 0x4787c62a, 0xa8304613, 0xfd469501,
  0x698098d8, 0x8b44f7af, 0xffff5bb1, 0x895cd7be,
  0x6b901122, 0xfd987193, 0xa679438e, 0x49b40821]

/-- K[16..31] of the ROM (R185). -/
def kQuarter1 : List Word := [
  0xf61e2562, 0xc040b340, 0x265e5a51, 0xe9b6c7aa,
  0xd62f105d, 0x02441453, 0xd8a1e681, 0xe7d3fbc8,
  0x21e1cde6, 0xc33707d6, 0xf4d50d87, 0x455a14ed,
  0xa9e3e905, 0xfcefa3f8, 0x676f02d9, 0x8d2a4c8a]

/-- K[32..47] of the ROM (R185). -/
def kQuarter2 : List Word := [
  0xfffa3942, 0x8771f681, 0x6d9d6122, 0xfde5380c,
  0xa4beea44, 0x4bdecfa9, 0xf6bb4b60, 0xbebfbc70,
  0x289b7ec6, 0xeaa127fa, 0xd4ef3085, 0x04881d05,
  0xd9d4d039, 0xe6db99e5, 0x1fa27cf8, 0xc4ac5665]

/-- K[48..63] of the ROM (R185). -/
def kQuarter3 : List Word := [
  0xf4292244, 0x432aff97, 0xab9423a7, 0xfc93a039,
  0x655b59c3, 0x8f0ccc92, 0xffeff47d, 0x85845dd1,
  0x6fa87e4f, 0xfe2ce6e0, 0xa3014314, 0x4e0811a1,
  0xf7537e82, 0xbd3af235, 0x2ad7d2bb, 0xeb86d391]

/-- The round constant ROM `K[0..63]` (R182, R185). -/
def kTable : List Word := kQuarter0 ++ kQuarter1 ++ kQuarter2 ++ kQuarter3

/-- `K[i]` (R182). -/
def kOf (i : Nat) : Word := kTable.getD i 0

/-- `IV`, the accumulator's initial value (R31). -/
def iv : Quad := ⟨0x67452301, 0xefcdab89, 0x98badcfe, 0x10325476⟩

/-- The 16 message words of a block: `M[j] = LE32(blk[4j], …, blk[4j+3])` (20_memory.md R76). -/
def messageWord (blk : List Byte) (j : Nat) : Word :=
  le32 (blk.getD (4 * j) 0) (blk.getD (4 * j + 1) 0) (blk.getD (4 * j + 2) 0) (blk.getD (4 * j + 3) 0)

/-- One round over the message words of a block; all four registers are read before any is written (R186). -/
def round (i : Nat) (r : Quad) (blk : List Byte) : Quad :=
  ⟨r.d, r.b + rotl32 (fOf (i / 16) r.b r.c r.d + r.a + kOf i + messageWord blk (wordIndexOf i)) (shiftOf i), r.b, r.c⟩

/-- The registers after rounds 0 to n - 1 (R187). -/
def rounds : Nat → Quad → List Byte → Quad
  | 0, r, _ => r
  | n + 1, r, blk => round n (rounds n r blk) blk

/-- The combine: register by register, each sum mod 2^32 with no carry between registers (R187, R203). -/
def addQuad (x y : Quad) : Quad := ⟨x.a + y.a, x.b + y.b, x.c + y.c, x.d + y.d⟩

/-- One block: snapshot, 64 rounds, additive combine (R187, R188). -/
def compress (h : Quad) (blk : List Byte) : Quad := addQuad h (rounds 64 h blk)

end Sys2Proof.Machine
end

