-- ==== Sys2Proof/Machine/Digest.lean ====
section
/-! DEFINITION. Padding, the whole digest and its rendering as pure functions of the message: 41_padding.md R160,
42_compressor.md R189, 43_serializer.md R220 and R221. -/

namespace Sys2Proof.Machine

/-- LE64bytes: the 8 bytes of a double word, bits 7:0 first (00_scope.md R8). -/
def le64Bytes (v : DWord) : List Byte :=
  [v.extractLsb' 0 8, v.extractLsb' 8 8, v.extractLsb' 16 8, v.extractLsb' 24 8,
   v.extractLsb' 32 8, v.extractLsb' 40 8, v.extractLsb' 48 8, v.extractLsb' 56 8]

/-- LE32bytes: the 4 bytes of a word, bits 7:0 first (00_scope.md R8). -/
def le32Bytes (v : Word) : List Byte := [lane v 0, lane v 1, lane v 2, lane v 3]

/-- The number of zero bytes of the padding of an N-byte message: (55 - N) mod 64, not negative (R160). -/
def padZeros (n : Nat) : Nat := ((55 - (n : Int)) % 64).toNat

/-- The padded message (R160); the first padding byte is 0x80 (R161). -/
def pad (msg : List Byte) : List Byte :=
  msg ++ [0x80] ++ List.replicate (padZeros msg.length) 0 ++ le64Bytes (BitVec.ofNat 64 (8 * msg.length))

/-- The number of blocks of an N-byte message's padding (R162). -/
def padBlocks (n : Nat) : Nat := (n + 8) / 64 + 1

/-- Block `j` of a byte sequence: its bytes 64j to 64j + 63. -/
def blockOf (bytes : List Byte) (j : Nat) : List Byte := (bytes.drop (64 * j)).take 64

/-- The full 64-byte blocks of a byte sequence, in order (R83). -/
def fullBlocks (bytes : List Byte) : List (List Byte) := (List.range (bytes.length / 64)).map (blockOf bytes)

/-- The accumulator after the full blocks of a byte sequence have been compressed from IV (R189). -/
def chain (bytes : List Byte) : Quad := (fullBlocks bytes).foldl compress iv

/-- The digest of a message, as the accumulator's final value (R189). -/
def md5 (msg : List Byte) : Quad := chain (pad msg)

/-- The 16 digest bytes (R220). -/
def serialize (h : Quad) : List Byte := le32Bytes h.a ++ le32Bytes h.b ++ le32Bytes h.c ++ le32Bytes h.d

/-- The ASCII code of a lowercase hexadecimal character (R221). -/
def hexChar (v : BitVec 4) : Byte :=
  if v.toNat < 10 then 0x30 + v.setWidth 8 else 0x61 + (v.setWidth 8 - 10)

/-- The hexadecimal characters of bytes, high nibble first (R221). -/
def hexBytes (bytes : List Byte) : List Byte :=
  bytes.flatMap fun b => [hexChar (b.extractLsb' 4 4), hexChar (b.extractLsb' 0 4)]

/-- The 32-character digest string of an accumulator value (R222). -/
def digestString (h : Quad) : List Byte := hexBytes (serialize h)

end Sys2Proof.Machine
end

