-- ==== Sys2Proof/Config.lean ====
section
/-! DEFINITION. What the platform fixes and the spec leaves OPEN (00_scope.md R6): constants without a value. -/

namespace Sys2Proof.Config

/-- The 128-byte page of the host's address space in which the register window lies; OPEN (R6, R73; O1). -/
opaque md5Page : Nat

/-- `MD5_BASE`, the window's base address, a multiple of 128 (R73). -/
def md5Base : Nat := 128 * md5Page

/-- `STEP_CYCLES`, the clock cycles of one Engine step; OPEN, and no rule depends on it (R6, R299; O3). -/
opaque stepCycles : Nat

/-- The size of the register window in bytes: 32 words of 32 bits (R6, R72). -/
def windowBytes : Nat := 128

/-- `COMPRESS_STEPS`, the Engine steps of one block: 64 rounds and one combine step (R6). -/
def compressSteps : Nat := 65

end Sys2Proof.Config
end

