-- ==== Sys2Proof/Machine/State.lean ====
section
/-! DEFINITION. All the state the spec gives the core (10_state.md), the inputs that wait outside it, and the reasons a
step can stop. -/

namespace Sys2Proof.Machine

/-- PHASE, the sequencer state (R36). -/
inductive Phase where
  | idle
  | absorb
  | compress
  | done
deriving DecidableEq, Repr

/-- NEXT, what the combine step does once a block is done (R37). -/
inductive Next where
  | absorb
  | pad2
  | done
deriving DecidableEq, Repr

/-- ERRCODE, the code of the first refused operation since ERR was last clear (R42, R260). -/
inductive ErrCode where
  | none
  | badCmd
  | busy
  | state
  | align
  | rsvd
  | rowrite
deriving DecidableEq, Repr

/-- The bytes of the block buffer: (address, byte) cells with rising addresses, none of them the byte an unlisted
address reads as (R35). -/
abbrev Memory := List Host.Cell

/-- One thing that happens at the core's boundary, or a turn left to the Engine (R70, R80; notes/assumptions/1.md). -/
inductive Event where
  /-- the Host's next bus operation: one access of the port (R100) -/
  | bus (word : BusWord)
  /-- the Host issues nothing and leaves this turn to the Engine (R81) -/
  | engineTurn
  /-- the reset input is asserted (R290, R292) -/
  | resetInput
  /-- a byte, halfword or misaligned access aimed at the window, which the port cannot carry and which is refused with no
  effect on the core (R74, O2; notes/assumptions/5.md) -/
  | subword
deriving DecidableEq, Repr

/-- The state of the core, and the two fields at its boundary that are the model's own. -/
structure State where
  /-- the accumulator A, B, C, D (R30) -/
  acc : Quad
  /-- the working registers a, b, c, d (R33) -/
  work : Quad
  /-- RND, the round counter, 0..64 (R34) -/
  rnd : Fin 65
  /-- buf[0..63], the block buffer (R35) -/
  buf : Memory
  /-- BCOUNT, the message bytes in `buf`, 0..63 (R35) -/
  bcount : BitVec 6
  /-- L, the message length in bits (R38) -/
  len : DWord
  /-- LENWRAP (R39) -/
  lenwrap : Bool
  /-- PHASE (R36) -/
  phase : Phase
  /-- NEXT (R37) -/
  next : Next
  /-- ERR (R41) -/
  err : Bool
  /-- ERRCODE (R42) -/
  errcode : ErrCode
  /-- the result of the Host's last read; the model's own field (R110: host state; notes/assumptions/2.md) -/
  readData : Option Word
  /-- the inputs still to come, oldest first; the model's own field (R70, R80; notes/assumptions/1.md) -/
  events : List Event
deriving DecidableEq, Repr

/-- The state after reset (R290). No read has answered and no input waits (notes/assumptions/2.md and 3.md). -/
def State.reset : State where
  acc := ⟨0, 0, 0, 0⟩
  work := ⟨0, 0, 0, 0⟩
  rnd := 0
  buf := []
  bcount := 0
  len := 0
  lenwrap := false
  phase := .idle
  next := .absorb
  err := false
  errcode := .none
  readData := none
  events := []

/-- Why the machine stops with a fault. -/
inductive Fault where
  /-- Raised by the meaning of ENG.ROUND or ENG.COMBINE when that Engine step is not enabled (R71, R201, R203 give no
  such step); `step` takes only enabled steps and never raises it. Safe (notes/assumptions/4.md). -/
  | engineStepDisabled
deriving DecidableEq, Repr

/-- Why the model gives no meaning. -/
inductive Refusal where
  /-- Raised by an arm of `exec` whose instruction has no meaning in the model; no arm does. Safe. -/
  | notModelled (mnemonic : String)
deriving DecidableEq, Repr

/-- What an operation answers. -/
abbrev Result := Host.Outcome State Fault Refusal

end Sys2Proof.Machine
end

