-- ==== Sys2Proof/Machine/Ops.lean ====
section
/-! DEFINITION. The named operations over the state that the meanings are written with: the block buffer's bytes, the
error record (the core's only form of exception, 60_exceptions.md R265), length accounting, starting a compression,
padding and reset. -/

namespace Sys2Proof.Machine

/-! ### The block buffer (10_state.md R35) -/

/-- What an unlisted byte of the block buffer reads as: every byte is 0 after reset (R290). -/
def unlistedByte : Byte := 0

/-- The byte at an address of the buffer. -/
def Memory.read : Memory → Nat → Byte
  | [], _ => unlistedByte
  | (k, v) :: rest, a => if k = a then v else Memory.read rest a

/-- Forgets the cells at an address. -/
def Memory.erase : Memory → Nat → Memory
  | [], _ => []
  | (k, v) :: rest, a => if k = a then Memory.erase rest a else (k, v) :: Memory.erase rest a

/-- Lists a cell before the first one with a higher address. -/
def Memory.insert : Memory → Nat → Byte → Memory
  | [], a, v => [(a, v)]
  | (k, w) :: rest, a, v => if k < a then (k, w) :: Memory.insert rest a v else (a, v) :: (k, w) :: rest

/-- `buf[a] <- v`, keeping the canonical form. -/
def Memory.write (m : Memory) (a : Nat) (v : Byte) : Memory :=
  if v = unlistedByte then m.erase a else (m.erase a).insert a v

/-- `buf[a + k] <- bs[k]` for every k. -/
def Memory.writeBytes : Memory → Nat → List Byte → Memory
  | m, _, [] => m
  | m, a, b :: bs => Memory.writeBytes (m.write a b) (a + 1) bs

/-- The canonical form from an address on: rising addresses below 64, no cell that holds the unlisted byte. -/
def Memory.wfFrom : Nat → Memory → Bool
  | _, [] => true
  | lo, (k, v) :: rest => decide (lo ≤ k) && decide (k < 64) && (v != unlistedByte) && Memory.wfFrom (k + 1) rest

/-- The canonical form of the buffer. -/
def Memory.wf (m : Memory) : Bool := Memory.wfFrom 0 m

/-- The buffer's 64 bytes as one block (R35). -/
def Memory.block (m : Memory) : List Byte := (List.range 64).map m.read

/-! ### The error record -/

/-- What `raise E_X` does to the state: ERRCODE keeps the first code, ERR is set, nothing else changes (R262). -/
def recordError (code : ErrCode) (s : State) : State :=
  { s with errcode := if s.err then s.errcode else code, err := true }

/-- `raise E_X`: the operation's whole effect is the error record; control stays with the Host (R9, R262, R265). -/
def raiseError (code : ErrCode) (s : State) : Result := .next (recordError code s)

/-- The return from an error: CLRERR's effect, and the only thing besides reset that clears the record (R241, R263). -/
def clearError (s : State) : State := { s with err := false, errcode := .none }

/-- The checks of FINAL and of the pushes, in the order of R261: E_BUSY while the Engine runs, then E_STATE outside
ABSORB. -/
def whenAbsorbing (act : State → Result) (s : State) : Result :=
  if s.phase = .compress then raiseError .busy s
  else if s.phase ≠ .absorb then raiseError .state s
  else act s

/-! ### Length, compression, intake, padding, reset -/

/-- `add_length(n)`: the sum is exact, LENWRAP records a carry out of bit 63 (40_input.md R143). -/
def addLength (n : Nat) (s : State) : State :=
  { s with
    len := BitVec.ofNat 64 (s.len.toNat + n)
    lenwrap := s.lenwrap || decide (2 ^ 64 ≤ s.len.toNat + n) }

/-- `start_compress(next)` (42_compressor.md R200). -/
def startCompress (nx : Next) (s : State) : State :=
  { s with work := s.acc, rnd := 0, next := nx, bcount := 0, phase := .compress }

/-- The accepted part of a push: store the bytes at BCOUNT, count their bits, and start the compression when the block
is full (R141, R142, R144). -/
def acceptBytes (bytes : List Byte) (s : State) : State :=
  let pushed := addLength (8 * bytes.length) { s with buf := s.buf.writeBytes s.bcount.toNat bytes }
  if s.bcount.toNat + bytes.length = 64 then startCompress .absorb pushed
  else { pushed with bcount := BitVec.ofNat 6 (s.bcount.toNat + bytes.length) }

/-- FINAL's first padding bytes: 0x80 at byte n and zeros to the end of the block (R164). -/
def markEnd (n : Nat) (m : Memory) : Memory := m.writeBytes n (0x80 :: List.replicate (63 - n) 0)

/-- The length field in bytes 56 to 63 (R164, R165; 20_memory.md R78). -/
def writeLength (len : DWord) (m : Memory) : Memory := m.writeBytes 56 (le64Bytes len)

/-- The second padding block: 56 zero bytes, then the length (R165). -/
def secondPadding (len : DWord) (m : Memory) : Memory := writeLength len (m.writeBytes 0 (List.replicate 56 0))

/-- `reset_state()`: every state element of the core takes its reset value (70_reset_and_hazards.md R290). What the
Host has been told and what it still has to do is not the core's (notes/assumptions/2.md). -/
def resetCore (s : State) : State := { State.reset with readData := s.readData, events := s.events }

/-- A read's result goes to the Host; no state of the core changes (20_memory.md R82). -/
def answer (v : Word) (s : State) : Result := .next { s with readData := some v }

end Sys2Proof.Machine
end

