-- ==== Sys2Proof/Machine/Operands.lean ====
section
/-! DEFINITION. The values the readable registers of the window show: DIGEST_A..D, LEN_LO, LEN_HI and HEX0..7
(30_encoding.md R106; 43_serializer.md R223 to R225). -/

namespace Sys2Proof.Machine

/-- `Hr`: the accumulator register of selector r (R223). -/
def digestWord (h : Quad) (sel : BitVec 2) : Word :=
  if sel = 0 then h.a else if sel = 1 then h.b else if sel = 2 then h.c else h.d

/-- HEXk: characters 4k to 4k + 3 of the digest string in lanes 0 to 3 (R224). -/
def hexWord (h : Quad) (k : BitVec 3) : Word :=
  let s := digestString h
  le32 (s.getD (4 * k.toNat) 0) (s.getD (4 * k.toNat + 1) 0) (s.getD (4 * k.toNat + 2) 0) (s.getD (4 * k.toNat + 3) 0)

/-- LEN_LO: L[31:0] (R225). -/
def lenLow (v : DWord) : Word := v.extractLsb' 0 32

/-- LEN_HI: L[63:32] (R225). -/
def lenHigh (v : DWord) : Word := v.extractLsb' 32 32

end Sys2Proof.Machine
end

