-- ==== Sys2Proof/Machine/Command.lean ====
section
/-! DEFINITION. The meanings of the commands, the writes of CTRL (44_control.md R240 to R243; 41_padding.md R164). -/

namespace Sys2Proof.Machine

/-- CMD.INIT (R240): refused while the Engine runs; else IV, an empty buffer and no length. ERR and ERRCODE stay. -/
def execCmdInit (s : State) : Result :=
  if s.phase = .compress then raiseError .busy s
  else .next { s with acc := iv, len := 0, lenwrap := false, buf := [], bcount := 0, phase := .absorb }

/-- FINAL's effect in ABSORB (R164): the padding in place; with n ≤ 55 the length fits in this block. -/
def finalPadding (s : State) : State :=
  let marked := markEnd s.bcount.toNat s.buf
  if s.bcount.toNat ≤ 55 then startCompress .done { s with buf := writeLength s.len marked }
  else startCompress .pad2 { s with buf := marked }

/-- CMD.FINAL (R164). -/
def execCmdFinal (s : State) : Result := whenAbsorbing (fun t => .next (finalPadding t)) s

/-- CMD.CLRERR (R241): accepted in every phase. -/
def execCmdClrErr (s : State) : Result := .next (clearError s)

/-- CMD.SRESET (R242): accepted in every phase; a running block is abandoned. -/
def execCmdSreset (s : State) : Result := .next (resetCore s)

/-- CMD.ILLEGAL (R243): E_BADCMD in every phase. -/
def execCmdIllegal (_data : Word) (s : State) : Result := raiseError .badCmd s

end Sys2Proof.Machine
end

