-- ==== Sys2Proof/Machine/Engine.lean ====
section
/-! DEFINITION. The meanings of the Engine's steps (42_compressor.md R201, R203), which of them is enabled
(20_memory.md R71), and how many the running block still needs (R204, 70_reset_and_hazards.md R300). -/

namespace Sys2Proof.Machine

/-- ENG.ROUND (R201): round RND on the working registers, with the message words of the buffer. -/
def execEngRound (s : State) : Result :=
  if s.phase = .compress then
    if h : s.rnd.val < 64 then
      .next { s with work := round s.rnd.val s.work s.buf.block, rnd := ⟨s.rnd.val + 1, by omega⟩ }
    else .fault .engineStepDisabled
  else .fault .engineStepDisabled

/-- What follows the combine, by NEXT (R203). -/
def afterCombine (s : State) : State :=
  match s.next with
  | .absorb => { s with phase := .absorb }
  | .done => { s with phase := .done }
  | .pad2 => startCompress .done { s with buf := secondPadding s.len s.buf }

/-- ENG.COMBINE (R203): the additive combine comes before a second padding block's snapshot. -/
def execEngCombine (s : State) : Result :=
  if s.phase = .compress ∧ s.rnd.val = 64 then .next (afterCombine { s with acc := addQuad s.acc s.work, rnd := 0 })
  else .fault .engineStepDisabled

/-- The Engine step that is enabled, if one is: exactly when PHASE = COMPRESS, chosen by RND (R71). -/
def enabledEngineStep (s : State) : Option Instr :=
  if s.phase = .compress then if s.rnd.val < 64 then some .engRound else some .engCombine else none

/-- How many Engine steps are left until BUSY = 0 (R204, R300). -/
def engineStepsLeft (s : State) : Nat :=
  if s.phase = .compress then
    (Config.compressSteps - s.rnd.val) + (if s.next = .pad2 then Config.compressSteps else 0)
  else 0

/-- The nominal clock cycles until BUSY = 0; nothing depends on them (R299, R300). -/
def nominalCycles (s : State) : Nat := Config.stepCycles * engineStepsLeft s

end Sys2Proof.Machine
end

