-- ==== Sys2Proof/Machine/Push.lean ====
section
/-! DEFINITION. The meanings of the pushes (40_input.md R141, R142). -/

namespace Sys2Proof.Machine

/-- PUSH.W (R141): E_BUSY, E_STATE, E_ALIGN in that order, else four message bytes. -/
def execPushW (byte0 byte1 byte2 byte3 : Byte) (s : State) : Result :=
  whenAbsorbing
    (fun t =>
      if t.bcount.toNat % 4 ≠ 0 then raiseError .align t
      else .next (acceptBytes [byte0, byte1, byte2, byte3] t)) s

/-- PUSH.B (R142): E_BUSY, E_STATE, else one message byte. -/
def execPushB (byte : Byte) (s : State) : Result := whenAbsorbing (fun t => .next (acceptBytes [byte] t)) s

/-- PUSH.B with DATA[31:8] ≠ 0 (R142): E_RSVD in every phase. -/
def execPushBIllegal (_data : Word) (s : State) : Result := raiseError .rsvd s

end Sys2Proof.Machine
end

