-- ==== Sys2Proof/Machine/Flags.lean ====
section
/-! DEFINITION. The codes and the assembly of the STATUS register (10_state.md R36, R40; 60_exceptions.md R260). -/

namespace Sys2Proof.Machine

/-- The 2-bit code of PHASE (R36). -/
def phaseCode : Phase → BitVec 2
  | .idle => 0
  | .absorb => 1
  | .compress => 2
  | .done => 3

/-- The 4-bit code of ERRCODE (R260). -/
def errCodeBits : ErrCode → BitVec 4
  | .none => 0
  | .badCmd => 1
  | .busy => 2
  | .state => 3
  | .align => 4
  | .rsvd => 5
  | .rowrite => 6

/-- BUSY: 1 when PHASE = COMPRESS (R40). -/
def busyBit (s : State) : BitVec 1 := BitVec.ofBool (decide (s.phase = .compress))

/-- DONE: 1 when PHASE = DONE (R40). -/
def doneBit (s : State) : BitVec 1 := BitVec.ofBool (decide (s.phase = .done))

/-- The STATUS word, by the formula of R40. -/
def statusWord (s : State) : Word :=
  (s.bcount.setWidth 32 <<< 16) ||| ((errCodeBits s.errcode).setWidth 32 <<< 8) |||
    ((phaseCode s.phase).setWidth 32 <<< 4) ||| ((BitVec.ofBool s.lenwrap).setWidth 32 <<< 3) |||
    ((BitVec.ofBool s.err).setWidth 32 <<< 2) ||| ((doneBit s).setWidth 32 <<< 1) ||| (busyBit s).setWidth 32

end Sys2Proof.Machine
end

