-- ==== Sys2Proof/Machine/Read.lean ====
section
/-! DEFINITION. The meanings of the reads: each returns 32 bits to the Host and changes no state of the core, in every
phase (20_memory.md R82; 43_serializer.md R223 to R225; 44_control.md R245, R247). -/

namespace Sys2Proof.Machine

/-- RD.CTRL: 0, not the last command (R247). -/
def execRdCtrl (_data : Word) (s : State) : Result := answer 0 s

/-- RD.STATUS: the STATUS word; the read clears nothing (R245). -/
def execRdStatus (_data : Word) (s : State) : Result := answer (statusWord s) s

/-- RD.MSG_WORD: 0, no buffered byte (R247). -/
def execRdMsgWord (_data : Word) (s : State) : Result := answer 0 s

/-- RD.MSG_BYTE: 0 (R247). -/
def execRdMsgByte (_data : Word) (s : State) : Result := answer 0 s

/-- RD.DIGEST: the accumulator as it is now, in every phase (R223). -/
def execRdDigest (sel : BitVec 2) (_data : Word) (s : State) : Result := answer (digestWord s.acc sel) s

/-- RD.LEN_LO (R225). -/
def execRdLenLo (_data : Word) (s : State) : Result := answer (lenLow s.len) s

/-- RD.LEN_HI (R225). -/
def execRdLenHi (_data : Word) (s : State) : Result := answer (lenHigh s.len) s

/-- RD.RSVD10: 0 (R247). -/
def execRdRsvd10 (_sel : BitVec 1) (_data : Word) (s : State) : Result := answer 0 s

/-- RD.RSVD12: 0 (R247). -/
def execRdRsvd12 (_sel : BitVec 2) (_data : Word) (s : State) : Result := answer 0 s

/-- RD.HEX: four characters of the digest string of the accumulator as it is now (R224). -/
def execRdHex (sel : BitVec 3) (_data : Word) (s : State) : Result := answer (hexWord s.acc sel) s

/-- RD.RSVD24: 0 (R247). -/
def execRdRsvd24 (_sel : BitVec 3) (_data : Word) (s : State) : Result := answer 0 s

end Sys2Proof.Machine
end

