-- ==== Sys2Proof/Machine/Refused.lean ====
section
/-! DEFINITION. The meanings of the writes to read-only and reserved registers: each is refused with E_ROWRITE, in every
phase and for every DATA, and the register written does not change (44_control.md R246). -/

namespace Sys2Proof.Machine

/-- A refused write (R246). -/
def refuseWrite (s : State) : Result := raiseError .rowrite s

/-- WR.STATUS: a write cannot clear ERR (R246). -/
def execWrStatus (_data : Word) (s : State) : Result := refuseWrite s

/-- WR.DIGEST: a write cannot load a chaining value (R246). -/
def execWrDigest (_sel : BitVec 2) (_data : Word) (s : State) : Result := refuseWrite s

/-- WR.LEN (R246). -/
def execWrLen (_sel : BitVec 1) (_data : Word) (s : State) : Result := refuseWrite s

/-- WR.RSVD10 (R246). -/
def execWrRsvd10 (_sel : BitVec 1) (_data : Word) (s : State) : Result := refuseWrite s

/-- WR.RSVD12 (R246). -/
def execWrRsvd12 (_sel : BitVec 2) (_data : Word) (s : State) : Result := refuseWrite s

/-- WR.HEX (R246). -/
def execWrHex (_sel : BitVec 3) (_data : Word) (s : State) : Result := refuseWrite s

/-- WR.RSVD24 (R246). -/
def execWrRsvd24 (_sel : BitVec 3) (_data : Word) (s : State) : Result := refuseWrite s

end Sys2Proof.Machine
end

