-- ==== Sys2Proof/Machine/Dispatch.lean ====
section
/-! DEFINITION. The meaning of every operation, one arm a constructor. -/

namespace Sys2Proof.Machine

def exec (i : Instr) (s : State) : Host.Outcome State Fault Refusal :=
  match i with
  -- commands
  | .cmdInit => Sys2Proof.Machine.execCmdInit s
  | .cmdFinal => Sys2Proof.Machine.execCmdFinal s
  | .cmdClrErr => Sys2Proof.Machine.execCmdClrErr s
  | .cmdSreset => Sys2Proof.Machine.execCmdSreset s
  | .cmdIllegal data => Sys2Proof.Machine.execCmdIllegal data s
  -- pushes
  | .pushW byte0 byte1 byte2 byte3 => Sys2Proof.Machine.execPushW byte0 byte1 byte2 byte3 s
  | .pushB byte => Sys2Proof.Machine.execPushB byte s
  | .pushBIllegal data => Sys2Proof.Machine.execPushBIllegal data s
  -- refused writes
  | .wrStatus data => Sys2Proof.Machine.execWrStatus data s
  | .wrDigest sel data => Sys2Proof.Machine.execWrDigest sel data s
  | .wrLen sel data => Sys2Proof.Machine.execWrLen sel data s
  | .wrRsvd10 sel data => Sys2Proof.Machine.execWrRsvd10 sel data s
  | .wrRsvd12 sel data => Sys2Proof.Machine.execWrRsvd12 sel data s
  | .wrHex sel data => Sys2Proof.Machine.execWrHex sel data s
  | .wrRsvd24 sel data => Sys2Proof.Machine.execWrRsvd24 sel data s
  -- reads
  | .rdCtrl data => Sys2Proof.Machine.execRdCtrl data s
  | .rdStatus data => Sys2Proof.Machine.execRdStatus data s
  | .rdMsgWord data => Sys2Proof.Machine.execRdMsgWord data s
  | .rdMsgByte data => Sys2Proof.Machine.execRdMsgByte data s
  | .rdDigest sel data => Sys2Proof.Machine.execRdDigest sel data s
  | .rdLenLo data => Sys2Proof.Machine.execRdLenLo data s
  | .rdLenHi data => Sys2Proof.Machine.execRdLenHi data s
  | .rdRsvd10 sel data => Sys2Proof.Machine.execRdRsvd10 sel data s
  | .rdRsvd12 sel data => Sys2Proof.Machine.execRdRsvd12 sel data s
  | .rdHex sel data => Sys2Proof.Machine.execRdHex sel data s
  | .rdRsvd24 sel data => Sys2Proof.Machine.execRdRsvd24 sel data s
  -- Engine steps
  | .engRound => Sys2Proof.Machine.execEngRound s
  | .engCombine => Sys2Proof.Machine.execEngCombine s

end Sys2Proof.Machine
end

