-- ==== Sys2Proof/Machine/Turn.lean ====
section
/-! DEFINITION. The turns that a step is made of: a bus operation of the Host, a turn of the Engine, the reset input
(20_memory.md R70, R71, R80; 70_reset_and_hazards.md R290). -/

namespace Sys2Proof.Machine

/-- A turn of the Engine: its enabled step; with none enabled the Engine is idle and all state is held (R71, R272). -/
def engineTurn (s : State) : Result :=
  match enabledEngineStep s with
  | some i => exec i s
  | none => .next s

/-- One input takes effect, atomically (R80). An access that the port cannot carry is refused: it has no effect on the core
(R74; 93_implementation_defined.md O2). -/
def takeEvent (ev : Event) (s : State) : Result :=
  match ev with
  | .bus word => exec (decode word) s
  | .engineTurn => engineTurn s
  | .resetInput => .next (resetCore s)
  | .subword => .next s

/-- The state with a bus operation put on the port, before every input that waits. -/
def putOnPort (word : BusWord) (s : State) : State := { s with events := .bus word :: s.events }

end Sys2Proof.Machine
end

