-- ==== Sys2Proof/Machine/Step.lean ====
section
/-! DEFINITION. One step of the core: the oldest input takes effect; while no input waits the Engine has every turn, so a
started block always finishes (20_memory.md R80, R81; notes/assumptions/1.md). -/

namespace Sys2Proof.Machine

def step (s : State) : Host.Outcome State Fault Refusal :=
  match s.events with
  | [] => engineTurn s
  | ev :: rest => takeEvent ev { s with events := rest }

/-- The state in which the next step runs the bus operation whose bits are `w` (notes/assumptions/3.md). -/
def State.withFetchWord (s : State) (nbits w : Nat) : State := putOnPort (BitVec.ofNat 38 (w % 2 ^ nbits)) s

end Sys2Proof.Machine
end

