-- ==== Sys2Proof/Machine/Asm.lean ====
section
/-! DEFINITION. The spec's host assembly syntax and pseudo-operations (30_encoding.md R110, R111). They are notation for
the Host's programs: labels and branches are the Host's own control flow and no operation of the core. -/

namespace Sys2Proof.Machine

/-- A register of the window by name, or `W<n>` by index (R110). -/
inductive Reg where
  | ctrl
  | status
  | msgWord
  | msgByte
  | digest (r : BitVec 2)
  | lenLo
  | lenHi
  | hex (k : BitVec 3)
  | w (n : BitVec 5)
deriving DecidableEq, Repr

/-- The word index of a register (R102). -/
def regIndex : Reg → BitVec 5
  | .ctrl => 0
  | .status => 1
  | .msgWord => 2
  | .msgByte => 3
  | .digest r => 1#3 ++ r
  | .lenLo => 8
  | .lenHi => 9
  | .hex k => 2#2 ++ k
  | .w n => n

/-- A line of a host program (R110). -/
inductive HostLine where
  | wr (reg : Reg) (imm : Word)
  | rd (reg : Reg) (hvar : String)
  | label (name : String)
  | bne (hvar : String) (mask value : Word) (target : String)
deriving DecidableEq, Repr

/-- The bus-operation word of a line; host control flow has none (R110). -/
def hostLineWord : HostLine → Option BusWord
  | .wr reg imm => some (busWord true (regIndex reg) imm)
  | .rd reg _ => some (busWord false (regIndex reg) 0)
  | .label _ => none
  | .bne _ _ _ _ => none

/-- The pseudo-operations (R111). -/
inductive Pseudo where
  | init
  | final
  | clrerr
  | sreset
  | pushb (imm : Byte)
  | pushw (imm : Word)
  | pushs (text : List Byte)
  | waitIdle
  | waitDone
  | rdDigest
deriving DecidableEq, Repr

/-- `PUSHB` (R111). -/
def pushbLine (imm : Byte) : HostLine := .wr .msgByte (le32 imm 0 0 0)

/-- The expansion of a pseudo-operation (R111). -/
def expandPseudo : Pseudo → List HostLine
  | .init => [.wr .ctrl 0x00000001]
  | .final => [.wr .ctrl 0x00000002]
  | .clrerr => [.wr .ctrl 0x00000003]
  | .sreset => [.wr .ctrl 0x00000004]
  | .pushb imm => [pushbLine imm]
  | .pushw imm => [.wr .msgWord imm]
  | .pushs text => text.map pushbLine
  | .waitIdle => [.label "1", .rd .status "t", .bne "t" 0x1 0x0 "1"]
  | .waitDone => [.label "1", .rd .status "t", .bne "t" 0x2 0x2 "1"]
  | .rdDigest => [.rd (.digest 0) "h0", .rd (.digest 1) "h1", .rd (.digest 2) "h2", .rd (.digest 3) "h3"]

end Sys2Proof.Machine
end

