-- ==== Sys2Proof/Machine/Window.lean ====
section
/-! DEFINITION. The host's byte-addressed view of the register window: which access of the host's address space becomes
which access of the core's port (20_memory.md R73, R74; O1, O2, O7). MD5_BASE is an argument. -/

namespace Sys2Proof.Machine

/-- The size of a host access in bytes. -/
inductive AccessSize where
  | byte
  | halfword
  | word
deriving DecidableEq, Repr

/-- A host access by byte address. -/
structure HostAccess where
  addr : Nat
  size : AccessSize
  write : Bool
  data : Word
deriving DecidableEq, Repr

/-- How many bytes an access covers. -/
def accessBytes : AccessSize → Nat
  | .byte => 1
  | .halfword => 2
  | .word => 4

/-- The byte address of register `widx` (R73). -/
def registerAddress (base : Nat) (widx : BitVec 5) : Nat := base + 4 * widx.toNat

/-- What an access is to the core: an aligned word access of the window is a port access (a read carries DATA 0, R100);
any other access that touches the window is one the port cannot carry (R74; notes/assumptions/5.md); an access outside
the window is not the core's (R73). -/
def routeAccess (base : Nat) (acc : HostAccess) : Option Event :=
  if acc.addr + accessBytes acc.size ≤ base ∨ base + Config.windowBytes ≤ acc.addr then none
  else if acc.size = .word ∧ acc.addr % 4 = base % 4 ∧ base ≤ acc.addr then
    some (.bus (busWord acc.write (BitVec.ofNat 5 ((acc.addr - base) / 4)) (if acc.write then acc.data else 0)))
  else some .subword

end Sys2Proof.Machine
end

