-- ==== Sys2Proof/Safety.lean ====
section
/-! DEFINITION. The terms claims use: the invariant of the core, what the accumulator stands for while a message is taken
in, and the protocol a Host follows to hash a message (70_reset_and_hazards.md R294). -/

namespace Sys2Proof.Machine

/-- `k` steps, stopping at the first fault or refusal: `Host.Core.run` of this core. -/
def runSteps : Nat → State → Result
  | 0, s => .next s
  | k + 1, s =>
    match step s with
    | .next t => runSteps k t
    | .fault r => .fault r
    | .refused r => .refused r

/-- What every step keeps. The clauses rule out states that no run reaches. -/
structure Inv (s : State) : Prop where
  /-- the block buffer is in its canonical form and lies in addresses 0..63 (R35) -/
  bufCanonical : s.buf.wf = true
  /-- `RND = 0` whenever PHASE ≠ COMPRESS (R34) -/
  rndAtRest : s.phase ≠ .compress → s.rnd = 0
  /-- bytes are counted only while they are collected (R35) -/
  noBytesOutsideAbsorb : s.phase ≠ .absorb → s.bcount = 0
  /-- L is always a multiple of 8 (R145) -/
  wholeBytes : s.len.toNat % 8 = 0
  /-- BCOUNT is the number of message bytes in the block being collected (R35, R144) -/
  bytesCounted : s.phase = .absorb → s.len.toNat / 8 % 64 = s.bcount.toNat
  /-- a block started by a push is full of message bytes (R144) -/
  fullBlock : s.phase = .compress → s.next = .absorb → s.len.toNat / 8 % 64 = 0
  /-- a second padding block follows only where the length did not fit (R163) -/
  secondBlockNeeded : s.phase = .compress → s.next = .pad2 → 56 ≤ s.len.toNat / 8 % 64
  /-- the working registers hold the snapshot after rounds 0 to RND - 1 (R200, R201) -/
  roundsDone : s.phase = .compress → s.work = rounds s.rnd.val s.acc s.buf.block
  /-- ERRCODE is E_NONE exactly while ERR is 0 (R42) -/
  errorRecorded : s.err = true ↔ s.errcode ≠ .none
  /-- without a hash context there is no digest and no length (R36, R290) -/
  nothingInIdle : s.phase = .idle → s.acc = ⟨0, 0, 0, 0⟩ ∧ s.len = 0 ∧ s.lenwrap = false

/-- The core has taken in exactly these bytes since INIT and collects more (R140, R144): its full blocks are in the
accumulator, the rest is in the buffer, all of it is counted. -/
structure Absorbed (s : State) (msg : List Byte) : Prop where
  collecting : s.phase = .absorb
  chained : s.acc = chain msg
  counted : s.bcount.toNat = msg.length % 64
  length : s.len = BitVec.ofNat 64 (8 * msg.length)
  buffered : ∀ k, k < msg.length % 64 → s.buf.read k = msg.getD (64 * (msg.length / 64) + k) 0

/-! ### The Host's protocol -/

/-- The word of CLRERR (R103). -/
def clrErrWord : BusWord := busWord true 0 3

/-- What a waiting Host does: it leaves turns to the Engine, reads registers, and may issue CLRERR (R294 steps 1, 2 and 4,
R296). -/
def isQuiet : Event → Bool
  | .engineTurn => true
  | .bus word => !opWrite word || word == clrErrWord
  | .resetInput => false
  | .subword => false

/-- Whether an input is CLRERR. -/
def isClrErr : Event → Bool
  | .bus word => word == clrErrWord
  | .engineTurn => false
  | .resetInput => false
  | .subword => false

/-- Whether CLRERR is among inputs. -/
def clearsError (evs : List Event) : Bool := evs.any isClrErr

/-- The turns that a wait leaves to the Engine. -/
def engineTurnsIn (wait : List Event) : Nat := wait.count .engineTurn

/-- A push of the protocol: PUSHB or PUSHW. -/
inductive HostPush where
  | byte (b : Byte)
  | word (b0 b1 b2 b3 : Byte)
deriving DecidableEq, Repr

/-- The message bytes of a push, in message order (R104). -/
def pushBytes : HostPush → List Byte
  | .byte b => [b]
  | .word b0 b1 b2 b3 => [b0, b1, b2, b3]

/-- The bus-operation word of a push (R104, R105). -/
def pushWord : HostPush → BusWord
  | .byte b => busWord true 3 (le32 b 0 0 0)
  | .word b0 b1 b2 b3 => busWord true 2 (le32 b0 b1 b2 b3)

/-- A push and the wait that follows it. -/
structure PushStep where
  push : HostPush
  wait : List Event
deriving DecidableEq, Repr

/-- The message that pushes make up. -/
def messageOf (ps : List PushStep) : List Byte := ps.flatMap fun p => pushBytes p.push

/-- The inputs of pushes and their waits. -/
def pushEvents (ps : List PushStep) : List Event := ps.flatMap fun p => .bus (pushWord p.push) :: p.wait

/-- Whether a push is allowed after n bytes: PUSHW only at a multiple of 4 (R294 step 2). -/
def pushAligned (n : Nat) : HostPush → Bool
  | .byte _ => true
  | .word _ _ _ _ => n % 4 == 0

/-- Step 2 of the protocol after n bytes: every push is aligned, the Host only waits in between, and after a push that
completes a block it waits until the block is done. A wait may also stand where none is needed. -/
def followsProtocol : Nat → List PushStep → Bool
  | _, [] => true
  | n, p :: ps =>
    pushAligned n p.push && p.wait.all isQuiet &&
      ((n + (pushBytes p.push).length) % 64 != 0 || decide (Config.compressSteps ≤ engineTurnsIn p.wait)) &&
      followsProtocol (n + (pushBytes p.push).length) ps

/-- The inputs of steps 1 to 4 of the protocol: INIT and what the Host does before the first push (an optional CLRERR),
the pushes, FINAL and the wait for DONE (R294). -/
def hashEvents (start : List Event) (ps : List PushStep) (finalWait : List Event) : List Event :=
  .bus (busWord true 0 1) :: (start ++ pushEvents ps ++ .bus (busWord true 0 2) :: finalWait)

/-- Which registers the Host reads the digest from (R294 step 5). -/
inductive ReadOut where
  | digest
  | hex
deriving DecidableEq, Repr

/-- The words of the digest reads: DIGEST_A..D, or HEX0..HEX7 (R102). -/
def readOutWords : ReadOut → List BusWord
  | .digest => [busWord false 4 0, busWord false 5 0, busWord false 6 0, busWord false 7 0]
  | .hex => [busWord false 16 0, busWord false 17 0, busWord false 18 0, busWord false 19 0,
      busWord false 20 0, busWord false 21 0, busWord false 22 0, busWord false 23 0]

/-- The inputs of step 5: a read of STATUS, then the digest reads (R294). -/
def readOutEvents (r : ReadOut) : List Event := .bus (busWord false 1 0) :: (readOutWords r).map .bus

/-- The inputs of the whole protocol (R294). -/
def protocolEvents (start : List Event) (ps : List PushStep) (finalWait : List Event) (r : ReadOut) : List Event :=
  hashEvents start ps finalWait ++ readOutEvents r

/-- What the Host is told by the next `k` steps, in order, where each of them is a read. -/
def answers : Nat → State → List Word
  | 0, _ => []
  | k + 1, s =>
    match step s with
    | .next t => t.readData.toList ++ answers k t
    | .fault _ => []
    | .refused _ => []

/-- The check of step 5: ERR, bit 2 of the STATUS word that was read, is 0 (R294, R40). -/
def errIsClear (status : Word) : Bool := !status.getLsbD 2

/-- The digest string that the Host makes of the words it has read: the bytes of DIGEST_A..D in hexadecimal, or the
characters of HEX0..HEX7 as they are (R220, R221, R224). -/
def digestRead : ReadOut → List Word → List Byte
  | .digest, words => hexBytes (words.flatMap le32Bytes)
  | .hex, words => words.flatMap le32Bytes

/-- The end of a hash: PHASE = DONE (R295). -/
def hashDone (s : State) : Prop := s.phase = .done

end Sys2Proof.Machine
end

