-- ==== Sys2Proof/Certificates/Slice0/Obligations.lean ====
section
/-! DEFINITION. The statements for the provers. Each docstring names the rule of the spec, or the spec's section, that the
statement formalises; OBLIGATIONS.json lists them. `{ t with buf := s.buf } = { s with … }` reads: apart from the buffer,
whose bytes the statement gives one by one, `t` is `s` with exactly these fields changed. -/

open Sys2Proof Sys2Proof.Machine

/-! ### Encoding and decoding -/

/-- 30_encoding.md R100 to R109: every well-formed operation with an encoding decodes to itself, with every operand at
every value; every bus-operation word is the encoding of the well-formed operation it decodes to; only the Engine steps
have no encoding. -/
def Obligations.DecodeAndEncodeAgree : Prop :=
  (∀ (i : Instr) (w : BusWord), i.wf = true → encode i = some w → decode w = i) ∧
  (∀ w : BusWord, (decode w).wf = true ∧ encode (decode w) = some w) ∧
  (∀ i : Instr, encode i = none ↔ i = .engRound ∨ i = .engCombine)

/-- 30_encoding.md section 4 and opcode_table.json: for each of the 2^38 words, the first row of the table that the word
matches names the operation the decoder reads. -/
def Obligations.DecoderFollowsTheOpcodeTable : Prop :=
  ∀ w : BusWord, (tableRowOf w).map TableRow.mnemonic = some (decode w).mnemonic

/-- Bus-operation words of 95_test_vectors.md section 2.11 and its programs, one for each family, decode to their
operations. -/
def Obligations.WrittenOutWordsDecode : Prop :=
  decode 0x2000000001 = .cmdInit ∧ decode 0x2000000002 = .cmdFinal ∧ decode 0x2000000003 = .cmdClrErr ∧
  decode 0x2000000004 = .cmdSreset ∧ decode 0x2000000101 = .cmdIllegal 0x101 ∧
  decode 0x2264636261 = .pushW 0x61 0x62 0x63 0x64 ∧ decode 0x2300000061 = .pushB 0x61 ∧
  decode 0x2300000100 = .pushBIllegal 0x100 ∧ decode 0x2500000000 = .wrDigest 1 0 ∧
  decode 0x3300000000 = .wrHex 3 0 ∧ decode 0x0100000000 = .rdStatus 0 ∧ decode 0x0700000000 = .rdDigest 3 0 ∧
  decode 0x1700000000 = .rdHex 7 0

/-! ### Steps -/

/-- 20_memory.md section 4: the bus operation at the head of the inputs takes effect whole in one step, as `exec` of the
operation its word encodes; the other inputs stay. The list of inputs is the model's own (notes/assumptions/1.md and
3.md). -/
def Obligations.StepRunsTheDecodedOperation : Prop :=
  (∀ (i : Instr) (w : BusWord) (s : State) (rest : List Event), i.wf = true → encode i = some w →
    s.events = .bus w :: rest → step s = exec i { s with events := rest }) ∧
  (∀ (s : State) (w : BusWord), step (s.withFetchWord 38 w.toNat) = exec (decode w) s)

/-- 20_memory.md section 1 (rule R71) and 60_exceptions.md section 3 (R272): when the Engine has the turn, because no
input waits or the next input leaves the turn to it, it takes a round step if PHASE = COMPRESS and RND < 64, the combine
step if PHASE = COMPRESS and RND = 64, and otherwise all state is held. Who has the turn is the model's own
(notes/assumptions/1.md). -/
def Obligations.EngineTurnTakesTheEnabledStep : Prop :=
  ∀ (s : State) (rest : List Event), (s.events = [] ∧ rest = []) ∨ s.events = .engineTurn :: rest →
    (s.phase = .compress → s.rnd.val < 64 → step s = exec .engRound { s with events := rest }) ∧
    (s.phase = .compress → s.rnd.val = 64 → step s = exec .engCombine { s with events := rest }) ∧
    (s.phase ≠ .compress → step s = .next { s with events := rest })

/-- A step completes in every state, since the core takes no traps (60_exceptions.md section 2). An access that the port
cannot carry is refused with no effect on the core (20_memory.md section 2, 93_implementation_defined.md section 2); that
it is an input, and that it is over in one step, is the model's own (notes/assumptions/1.md and 5.md). -/
def Obligations.EveryStepCompletes : Prop :=
  ∀ s : State,
    (∃ t, step s = .next t) ∧
    (∀ rest, s.events = .subword :: rest → step s = .next { s with events := rest })

/-- Every bus operation completes in every state, since the core takes no traps and every operation has a defined result in
every phase (60_exceptions.md section 2, 93_implementation_defined.md section 2), and an Engine step exactly where
20_memory.md section 1 and 42_compressor.md section 3 enable it (the fault is the model's own, notes/assumptions/4.md). -/
def Obligations.OperationsStopOnlyOnDisabledEngineSteps : Prop :=
  ∀ s : State,
    (∀ i : Instr, i.isEngineStep = false → ∃ t, exec i s = .next t) ∧
    ((∃ t, exec .engRound s = .next t) ↔ s.phase = .compress ∧ s.rnd.val < 64) ∧
    ((∃ t, exec .engCombine s = .next t) ↔ s.phase = .compress ∧ s.rnd.val = 64) ∧
    (∀ i : Instr, i.isEngineStep = true → (∀ t, exec i s ≠ .next t) → exec i s = .fault .engineStepDisabled)

/-- The model's own boundary fields (notes/assumptions/1.md and 2.md): no operation touches the waiting inputs, and only
a read gives the Host a value. -/
def Obligations.OnlyReadsAnswerTheHost : Prop :=
  ∀ (i : Instr) (s t : State), exec i s = .next t →
    t.events = s.events ∧ (i.isRead = false → t.readData = s.readData) ∧ (i.isRead = true → t.readData ≠ none)

/-! ### Commands -/

/-- 44_control.md R240 with the IV of 10_state.md R31. -/
def Obligations.InitLoadsIvAndStartsAMessage : Prop :=
  ∀ s : State,
    (s.phase = .compress →
      exec .cmdInit s = .next { s with err := true, errcode := if s.err = true then s.errcode else .busy }) ∧
    (s.phase ≠ .compress → ∃ t, exec .cmdInit s = .next t ∧ (∀ k, t.buf.read k = 0) ∧
      { t with buf := s.buf } =
        { s with
          acc := ⟨0x67452301, 0xefcdab89, 0x98badcfe, 0x10325476⟩
          len := 0
          lenwrap := false
          bcount := 0
          phase := .absorb } ∧
      exec .cmdInit t = .next t)

/-- 41_padding.md R164: the checks, the padding byte by byte, and the start of the compression; `engineStepsLeft` counts
the Engine steps to DONE. -/
def Obligations.FinalPadsAndStartsTheEngine : Prop :=
  ∀ s : State,
    (s.phase = .compress →
      exec .cmdFinal s = .next { s with err := true, errcode := if s.err = true then s.errcode else .busy }) ∧
    (s.phase = .idle ∨ s.phase = .done →
      exec .cmdFinal s = .next { s with err := true, errcode := if s.err = true then s.errcode else .state }) ∧
    (s.phase = .absorb → s.bcount.toNat ≤ 55 → ∃ t, exec .cmdFinal s = .next t ∧
      (∀ k, t.buf.read k =
        if k < s.bcount.toNat then s.buf.read k
        else if k = s.bcount.toNat then 0x80
        else if k < 56 then 0
        else if k < 64 then s.len.extractLsb' (8 * (k - 56)) 8
        else s.buf.read k) ∧
      { t with buf := s.buf } =
        { s with work := s.acc, rnd := 0, next := .done, bcount := 0, phase := .compress } ∧
      engineStepsLeft t = 65) ∧
    (s.phase = .absorb → 56 ≤ s.bcount.toNat → ∃ t, exec .cmdFinal s = .next t ∧
      (∀ k, t.buf.read k =
        if k < s.bcount.toNat then s.buf.read k
        else if k = s.bcount.toNat then 0x80
        else if k < 64 then 0
        else s.buf.read k) ∧
      { t with buf := s.buf } =
        { s with work := s.acc, rnd := 0, next := .pad2, bcount := 0, phase := .compress } ∧
      engineStepsLeft t = 130)

/-- 44_control.md R241: CLRERR clears the error record, in every phase, and nothing else. -/
def Obligations.ClrErrClearsOnlyTheErrorRecord : Prop :=
  ∀ s : State, exec .cmdClrErr s = .next { s with err := false, errcode := .none }

/-- 44_control.md R242: SRESET gives every state element of the core its reset value, in every phase, so a running block
is abandoned. -/
def Obligations.SresetGivesTheResetValues : Prop :=
  ∀ s : State, ∃ t, exec .cmdSreset s = .next t ∧
    t.acc = ⟨0, 0, 0, 0⟩ ∧ t.work = ⟨0, 0, 0, 0⟩ ∧ t.rnd.val = 0 ∧ (∀ k, t.buf.read k = 0) ∧ t.bcount = 0 ∧
    t.len = 0 ∧ t.lenwrap = false ∧ t.phase = .idle ∧ t.next = .absorb ∧ t.err = false ∧ t.errcode = .none

/-- 70_reset_and_hazards.md section 1 (rule R291): what the registers read after reset. -/
def Obligations.RegistersReadZeroAfterReset : Prop :=
  (∀ data, ∃ t, exec (.rdStatus data) State.reset = .next t ∧ t.readData = some 0) ∧
  (∀ sel data, ∃ t, exec (.rdDigest sel data) State.reset = .next t ∧ t.readData = some 0) ∧
  (∀ data, ∃ t, exec (.rdLenLo data) State.reset = .next t ∧ t.readData = some 0) ∧
  (∀ data, ∃ t, exec (.rdLenHi data) State.reset = .next t ∧ t.readData = some 0) ∧
  (∀ sel data, ∃ t, exec (.rdHex sel data) State.reset = .next t ∧ t.readData = some 0x30303030) ∧
  enabledEngineStep State.reset = none

/-- 44_control.md R243: every CTRL write that is no command is CMD.ILLEGAL, and its whole effect in every phase is the
error record with E_BADCMD. -/
def Obligations.IllegalCommandRecordsBadCmd : Prop :=
  (∀ data : Word, data.extractLsb' 8 24 ≠ 0 ∨ lane data 0 = 0 ∨ 5 ≤ (lane data 0).toNat →
    decode (busWord true 0 data) = .cmdIllegal data) ∧
  (∀ (data : Word) (s : State), exec (.cmdIllegal data) s =
    .next { s with err := true, errcode := if s.err = true then s.errcode else .badCmd })

/-! ### Pushes -/

/-- 40_input.md R141 with the length accounting of R143 and start_compress of 42_compressor.md R200. -/
def Obligations.WordPushAppendsFourBytes : Prop :=
  ∀ (b0 b1 b2 b3 : Byte) (s : State),
    (s.phase = .compress → exec (.pushW b0 b1 b2 b3) s =
      .next { s with err := true, errcode := if s.err = true then s.errcode else .busy }) ∧
    (s.phase = .idle ∨ s.phase = .done → exec (.pushW b0 b1 b2 b3) s =
      .next { s with err := true, errcode := if s.err = true then s.errcode else .state }) ∧
    (s.phase = .absorb → s.bcount.toNat % 4 ≠ 0 → exec (.pushW b0 b1 b2 b3) s =
      .next { s with err := true, errcode := if s.err = true then s.errcode else .align }) ∧
    (s.phase = .absorb → s.bcount.toNat % 4 = 0 → ∃ t, exec (.pushW b0 b1 b2 b3) s = .next t ∧
      (∀ k, t.buf.read k =
        if k = s.bcount.toNat then b0
        else if k = s.bcount.toNat + 1 then b1
        else if k = s.bcount.toNat + 2 then b2
        else if k = s.bcount.toNat + 3 then b3
        else s.buf.read k) ∧
      t.len.toNat = (s.len.toNat + 32) % 2 ^ 64 ∧
      (t.lenwrap = true ↔ s.lenwrap = true ∨ 2 ^ 64 ≤ s.len.toNat + 32) ∧
      (s.bcount.toNat ≠ 60 → t.bcount.toNat = s.bcount.toNat + 4 ∧
        { t with buf := s.buf, len := s.len, lenwrap := s.lenwrap, bcount := s.bcount } = s) ∧
      (s.bcount.toNat = 60 →
        { t with buf := s.buf, len := s.len, lenwrap := s.lenwrap } =
          { s with work := s.acc, rnd := 0, next := .absorb, bcount := 0, phase := .compress }))

/-- 40_input.md R142, both rows, with the length accounting of R143 and start_compress of 42_compressor.md R200. -/
def Obligations.BytePushAppendsOneByte : Prop :=
  (∀ (data : Word) (s : State), exec (.pushBIllegal data) s =
    .next { s with err := true, errcode := if s.err = true then s.errcode else .rsvd }) ∧
  ∀ (b : Byte) (s : State),
    (s.phase = .compress → exec (.pushB b) s =
      .next { s with err := true, errcode := if s.err = true then s.errcode else .busy }) ∧
    (s.phase = .idle ∨ s.phase = .done → exec (.pushB b) s =
      .next { s with err := true, errcode := if s.err = true then s.errcode else .state }) ∧
    (s.phase = .absorb → ∃ t, exec (.pushB b) s = .next t ∧
      (∀ k, t.buf.read k = if k = s.bcount.toNat then b else s.buf.read k) ∧
      t.len.toNat = (s.len.toNat + 8) % 2 ^ 64 ∧
      (t.lenwrap = true ↔ s.lenwrap = true ∨ 2 ^ 64 ≤ s.len.toNat + 8) ∧
      (s.bcount.toNat ≠ 63 → t.bcount.toNat = s.bcount.toNat + 1 ∧
        { t with buf := s.buf, len := s.len, lenwrap := s.lenwrap, bcount := s.bcount } = s) ∧
      (s.bcount.toNat = 63 →
        { t with buf := s.buf, len := s.len, lenwrap := s.lenwrap } =
          { s with work := s.acc, rnd := 0, next := .absorb, bcount := 0, phase := .compress }))

/-! ### Refused writes -/

/-- 44_control.md R246: the whole effect of a write to WIDX 1 or 4..31, in every phase and for every DATA, is the error
record with E_ROWRITE. -/
def Obligations.RefusedWritesRecordRoWrite : Prop :=
  (∀ (widx : BitVec 5) (data : Word), widx = 1 ∨ 4 ≤ widx.toNat →
    ∀ s : State, exec (decode (busWord true widx data)) s =
      .next { s with err := true, errcode := if s.err = true then s.errcode else .rowrite }) ∧
  (∀ (s t : State) (data : Word) (sel1 : BitVec 1) (sel2 : BitVec 2) (sel3 : BitVec 3),
    t = { s with err := true, errcode := if s.err = true then s.errcode else .rowrite } →
    exec (.wrStatus data) s = .next t ∧ exec (.wrDigest sel2 data) s = .next t ∧ exec (.wrLen sel1 data) s = .next t ∧
    exec (.wrRsvd10 sel1 data) s = .next t ∧ exec (.wrRsvd12 sel2 data) s = .next t ∧
    exec (.wrHex sel3 data) s = .next t ∧ exec (.wrRsvd24 sel3 data) s = .next t)

/-! ### Reads -/

/-- 44_control.md R247: the write-only and the reserved registers read 0, in every state, and the read changes
nothing else. -/
def Obligations.WriteOnlyAndReservedRegistersReadZero : Prop :=
  ∀ (s : State) (data : Word) (sel1 : BitVec 1) (sel2 : BitVec 2) (sel3 : BitVec 3),
    exec (.rdCtrl data) s = .next { s with readData := some 0 } ∧
    exec (.rdMsgWord data) s = .next { s with readData := some 0 } ∧
    exec (.rdMsgByte data) s = .next { s with readData := some 0 } ∧
    exec (.rdRsvd10 sel1 data) s = .next { s with readData := some 0 } ∧
    exec (.rdRsvd12 sel2 data) s = .next { s with readData := some 0 } ∧
    exec (.rdRsvd24 sel3 data) s = .next { s with readData := some 0 }

/-- 44_control.md R245 with every field of the table of 10_state.md R40 and the codes of R36 and 60_exceptions.md
R260. -/
def Obligations.StatusReadShowsEveryField : Prop :=
  ∀ (s : State) (data : Word), ∃ v : Word, exec (.rdStatus data) s = .next { s with readData := some v } ∧
    v.getLsbD 0 = decide (s.phase = .compress) ∧
    v.getLsbD 1 = decide (s.phase = .done) ∧
    v.getLsbD 2 = s.err ∧
    v.getLsbD 3 = s.lenwrap ∧
    (v.extractLsb' 4 2).toNat =
      (match s.phase with | .idle => 0 | .absorb => 1 | .compress => 2 | .done => 3) ∧
    v.extractLsb' 6 2 = 0 ∧
    (v.extractLsb' 8 4).toNat =
      (match s.errcode with
        | .none => 0 | .badCmd => 1 | .busy => 2 | .state => 3 | .align => 4 | .rsvd => 5 | .rowrite => 6) ∧
    v.extractLsb' 12 4 = 0 ∧
    v.extractLsb' 16 6 = s.bcount ∧
    v.extractLsb' 22 10 = 0

/-- 43_serializer.md R223: the selected accumulator register, in every phase. -/
def Obligations.DigestReadShowsTheAccumulator : Prop :=
  ∀ (s : State) (data : Word),
    exec (.rdDigest 0 data) s = .next { s with readData := some s.acc.a } ∧
    exec (.rdDigest 1 data) s = .next { s with readData := some s.acc.b } ∧
    exec (.rdDigest 2 data) s = .next { s with readData := some s.acc.c } ∧
    exec (.rdDigest 3 data) s = .next { s with readData := some s.acc.d }

/-- 43_serializer.md R225: L[31:0] and L[63:32]. -/
def Obligations.LengthReadsShowBothHalves : Prop :=
  ∀ (s : State) (data : Word),
    exec (.rdLenLo data) s = .next { s with readData := some (BitVec.ofNat 32 (s.len.toNat % 2 ^ 32)) } ∧
    exec (.rdLenHi data) s = .next { s with readData := some (BitVec.ofNat 32 (s.len.toNat / 2 ^ 32)) }

/-- 43_serializer.md R224 with R220 and R221: lane j of HEXk is character c = 4k + j of the digest string; character c
shows the high nibble (c even) or the low nibble (c odd) of digest byte c / 2; digest byte 4r + m is bits [8m+7:8m] of
register r; nibbles 0..9 are 0x30.., nibbles 10..15 are 0x61... -/
def Obligations.HexReadShowsTheDigestCharacters : Prop :=
  ∀ (s : State) (sel : BitVec 3) (data : Word), ∃ v : Word,
    exec (.rdHex sel data) s = .next { s with readData := some v } ∧
    ∀ j c m n : Nat, j < 4 → c = 4 * sel.toNat + j → m = c / 2 →
      n = ([s.acc.a, s.acc.b, s.acc.c, s.acc.d].getD (m / 4) 0).toNat / 2 ^ (8 * (m % 4)) / 2 ^ (4 * (1 - c % 2)) % 16 →
      (lane v j).toNat = if n < 10 then 0x30 + n else 0x61 + (n - 10)

/-- 20_memory.md section 4 (rule R82), reads: a read changes no state of the core and raises no error, and the same read
again gives the same value. -/
def Obligations.ReadsHaveNoSideEffects : Prop :=
  ∀ (i : Instr) (s : State), i.isRead = true → ∃ v,
    exec i s = .next { s with readData := some v } ∧
    exec i { s with readData := some v } = .next { s with readData := some v }

/-- 10_state.md, "State marked hidden cannot be read by the host", and R46: what a read answers does not depend on the
working registers, RND, NEXT or the buffer. -/
def Obligations.ReadsRevealNoHiddenState : Prop :=
  ∀ (i : Instr) (s s' t t' : State), i.isRead = true →
    s.acc = s'.acc → s.bcount = s'.bcount → s.len = s'.len → s.lenwrap = s'.lenwrap → s.phase = s'.phase →
    s.err = s'.err → s.errcode = s'.errcode →
    exec i s = .next t → exec i s' = .next t' → t.readData = t'.readData

/-! ### Engine steps -/

/-- 42_compressor.md R201 with the round of R186, the word index of R184 and M[j] of 20_memory.md R76: all four working
registers are written at once from their old values, RND advances, nothing else changes. -/
def Obligations.EngineRoundIsOneRound : Prop :=
  ∀ s : State, s.phase = .compress → s.rnd.val < 64 → ∃ t, exec .engRound s = .next t ∧
    (∀ q g : Nat, q = s.rnd.val / 16 →
      g = (if q = 0 then s.rnd.val else if q = 1 then (5 * s.rnd.val + 1) % 16
        else if q = 2 then (3 * s.rnd.val + 5) % 16 else 7 * s.rnd.val % 16) →
      t.work.a = s.work.d ∧
      t.work.b = s.work.b +
        ((if q = 0 then (s.work.b &&& s.work.c) ||| (~~~s.work.b &&& s.work.d)
          else if q = 1 then (s.work.b &&& s.work.d) ||| (s.work.c &&& ~~~s.work.d)
          else if q = 2 then s.work.b ^^^ s.work.c ^^^ s.work.d
          else s.work.c ^^^ (s.work.b ||| ~~~s.work.d)) +
          s.work.a + kOf s.rnd.val +
          le32 (s.buf.read (4 * g)) (s.buf.read (4 * g + 1)) (s.buf.read (4 * g + 2)) (s.buf.read (4 * g + 3))).rotateLeft
            (shiftOf s.rnd.val) ∧
      t.work.c = s.work.b ∧
      t.work.d = s.work.c) ∧
    t.rnd.val = s.rnd.val + 1 ∧
    { t with work := s.work, rnd := s.rnd } = s

/-- 42_compressor.md R203 with 41_padding.md R165: each register is added by itself mod 2^32; NEXT says whether the core
collects bytes again, is done, or compresses the second padding block, which chains from the new accumulator. -/
def Obligations.EngineCombineAddsAndContinues : Prop :=
  ∀ (s : State) (sum : Quad), s.phase = .compress → s.rnd.val = 64 →
    sum.a.toNat = (s.acc.a.toNat + s.work.a.toNat) % 2 ^ 32 →
    sum.b.toNat = (s.acc.b.toNat + s.work.b.toNat) % 2 ^ 32 →
    sum.c.toNat = (s.acc.c.toNat + s.work.c.toNat) % 2 ^ 32 →
    sum.d.toNat = (s.acc.d.toNat + s.work.d.toNat) % 2 ^ 32 →
    (s.next = .absorb → exec .engCombine s = .next { s with acc := sum, rnd := 0, phase := .absorb }) ∧
    (s.next = .done → exec .engCombine s = .next { s with acc := sum, rnd := 0, phase := .done }) ∧
    (s.next = .pad2 → ∃ t, exec .engCombine s = .next t ∧
      (∀ k, t.buf.read k =
        if k < 56 then 0 else if k < 64 then s.len.extractLsb' (8 * (k - 56)) 8 else s.buf.read k) ∧
      { t with buf := s.buf } = { s with acc := sum, work := sum, rnd := 0, next := .done, bcount := 0 })

/-- 42_compressor.md section 3: the 65 Engine steps of a block, with no input between them, compute `compress` of the
accumulator and the buffer, and leave the core where NEXT says. That the Engine has every turn while no input waits is the
model's own choice (notes/assumptions/1.md). -/
def Obligations.EngineStepsOfABlockComputeCompress : Prop :=
  ∀ s : State, s.events = [] → s.phase = .compress → s.rnd.val = 0 → s.work = s.acc →
    ∃ t, runSteps 65 s = .next t ∧ t.acc = compress s.acc s.buf.block ∧
      t.len = s.len ∧ t.err = s.err ∧ t.errcode = s.errcode ∧ t.lenwrap = s.lenwrap ∧
      (s.next = .absorb → t.phase = .absorb ∧ t.buf = s.buf ∧ t.bcount = s.bcount) ∧
      (s.next = .done → t.phase = .done) ∧
      (s.next = .pad2 → t.phase = .compress ∧ t.rnd.val = 0 ∧ t.next = .done ∧ t.work = t.acc ∧
        t.buf.block = List.replicate 56 0 ++ le64Bytes s.len)

/-- 42_compressor.md section 3, 70_reset_and_hazards.md section 4: `engineStepsLeft` is the number of Engine steps until
BUSY = 0, at most 130. That each step with no input waiting is an Engine step is the model's own choice
(notes/assumptions/1.md). -/
def Obligations.EngineStepsLeftCountsTheStepsUntilIdle : Prop :=
  ∀ s : State, s.events = [] → s.phase = .compress →
    engineStepsLeft s ≤ 130 ∧
    (∃ t, runSteps (engineStepsLeft s) s = .next t ∧ t.phase ≠ .compress) ∧
    (∀ k, k < engineStepsLeft s → ∃ t, runSteps k s = .next t ∧ t.phase = .compress)

/-- 20_memory.md section 4 with the step counts of 42_compressor.md section 3: whatever inputs wait, within 130 steps after
the last of them no block runs. This does not say that a block finished: an SRESET or reset input among them may have
abandoned it (44_control.md section 1, 70_reset_and_hazards.md section 1). The list of inputs, and that the Engine has
every turn after it, are the model's own choice (notes/assumptions/1.md). -/
def Obligations.NoBlockRunsOnceTheInputsEnd : Prop :=
  ∀ s : State, ∃ k t, k ≤ s.events.length + 130 ∧ runSteps k s = .next t ∧ t.phase ≠ .compress ∧ t.events = []

/-! ### Rules of the whole machine -/

/-- 10_state.md section 2 (rules R30, R32): only INIT, the combine step and SRESET change the accumulator, and only INIT
and SRESET when no block runs. -/
def Obligations.AccumulatorWrittenOnlyByInitCombineSreset : Prop :=
  ∀ (i : Instr) (s t : State), exec i s = .next t → t.acc ≠ s.acc →
    i = .cmdInit ∨ i = .cmdSreset ∨ (i = .engCombine ∧ s.phase = .compress)

/-- 60_exceptions.md section 1: CLRERR, SRESET and the reset input clear the error record, no other operation or Engine step
does, and while ERR is 1 the record does not change; an error blocks nothing, since what an operation does to the rest of
the state does not depend on the record. That the reset input is an input that takes one step is the model's own
(notes/assumptions/1.md and 6.md). -/
def Obligations.ErrorRecordIsStickyAndBlocksNothing : Prop :=
  (∀ (i : Instr) (s t : State), exec i s = .next t → s.err = true → i ≠ .cmdClrErr → i ≠ .cmdSreset →
    t.err = true ∧ t.errcode = s.errcode) ∧
  (∀ (i : Instr) (s t : State) (e : Bool) (c : ErrCode), exec i s = .next t →
    ∃ t', exec i { s with err := e, errcode := c } = .next t' ∧
      { t' with err := t.err, errcode := t.errcode, readData := t.readData } = t ∧
      ((∀ data, i ≠ .rdStatus data) → t'.readData = t.readData)) ∧
  (∀ s : State, ∃ t, exec .cmdClrErr s = .next t ∧ t.err = false ∧ t.errcode = .none) ∧
  (∀ s : State, ∃ t, exec .cmdSreset s = .next t ∧ t.err = false ∧ t.errcode = .none) ∧
  (∀ (s : State) (rest : List Event), s.events = .resetInput :: rest →
    ∃ t, step s = .next t ∧ t.err = false ∧ t.errcode = .none)

/-- 10_state.md section 4: LENWRAP is set exactly when a push's bits carry out of bit 63 of L; INIT, SRESET and the reset
input clear it and no other operation or Engine step does; it does not stop the hash: what an operation does to the rest of
the state, and what any read but RD.STATUS gives, does not depend on it. That the reset input is an input that takes one
step is the model's own (notes/assumptions/1.md and 6.md). -/
def Obligations.LengthWrapIsStickyAndStopsNothing : Prop :=
  State.reset.lenwrap = false ∧
  (∀ (i : Instr) (s t : State), exec i s = .next t → s.lenwrap = false →
    (t.lenwrap = true ↔ s.phase = .absorb ∧
      ((∃ b, i = .pushB b ∧ 2 ^ 64 ≤ s.len.toNat + 8) ∨
       (∃ b0 b1 b2 b3, i = .pushW b0 b1 b2 b3 ∧ s.bcount.toNat % 4 = 0 ∧ 2 ^ 64 ≤ s.len.toNat + 32)))) ∧
  (∀ (i : Instr) (s t : State), exec i s = .next t → s.lenwrap = true → t.lenwrap = false →
    i = .cmdInit ∨ i = .cmdSreset) ∧
  (∀ (i : Instr) (s t : State) (b : Bool), exec i s = .next t →
    ∃ t', exec i { s with lenwrap := b } = .next t' ∧
      { t' with lenwrap := t.lenwrap, readData := t.readData } = t ∧
      ((∀ data, i ≠ .rdStatus data) → t'.readData = t.readData)) ∧
  (∀ s : State, s.phase ≠ .compress → ∃ t, exec .cmdInit s = .next t ∧ t.lenwrap = false) ∧
  (∀ s : State, ∃ t, exec .cmdSreset s = .next t ∧ t.lenwrap = false) ∧
  (∀ (s : State) (rest : List Event), s.events = .resetInput :: rest → ∃ t, step s = .next t ∧ t.lenwrap = false)

/-- 10_state.md section 4 (rule R36): the transitions of PHASE. -/
def Obligations.PhaseChangesOnlyAsTheSequencerSays : Prop :=
  ∀ (i : Instr) (s t : State), exec i s = .next t → t.phase ≠ s.phase →
    (i = .cmdInit ∧ s.phase ≠ .compress ∧ t.phase = .absorb) ∨
    (i = .cmdSreset ∧ t.phase = .idle) ∨
    (((∃ b, i = .pushB b ∧ s.bcount.toNat = 63) ∨ (∃ b0 b1 b2 b3, i = .pushW b0 b1 b2 b3 ∧ s.bcount.toNat = 60) ∨
      i = .cmdFinal) ∧ s.phase = .absorb ∧ t.phase = .compress) ∨
    (i = .engCombine ∧ s.phase = .compress ∧ s.rnd.val = 64 ∧
      ((s.next = .absorb ∧ t.phase = .absorb) ∨ (s.next = .done ∧ t.phase = .done)))

/-- 42_compressor.md section 3 (rule R202), 70_reset_and_hazards.md section 1 (R292): while a block runs no host
operation but SRESET changes anything of the core but the error record. -/
def Obligations.OnlySresetDisturbsARunningBlock : Prop :=
  ∀ (i : Instr) (s t : State), s.phase = .compress → i.isEngineStep = false → i ≠ .cmdSreset → exec i s = .next t →
    { t with err := s.err, errcode := s.errcode, readData := s.readData } = s

/-- 60_exceptions.md section 2: a push and the combine step that ends a block may come in either order; pushed first, the
byte is refused with E_BUSY; combined first, it is accepted. That an order is a list of inputs is the model's own
(notes/assumptions/1.md). -/
def Obligations.PushRacesWithTheCombineStep : Prop :=
  ∀ (s : State) (b : Byte), s.phase = .compress → s.rnd.val = 64 → s.next = .absorb → s.bcount = 0 → s.err = false →
    (∃ t, runSteps 2 { s with events := [.bus (busWord true 3 (le32 b 0 0 0)), .engineTurn] } = .next t ∧
      t.phase = .absorb ∧ t.err = true ∧ t.errcode = .busy ∧ t.len = s.len ∧ t.bcount = 0 ∧ t.buf = s.buf ∧
      t.acc = addQuad s.acc s.work) ∧
    (∃ t, runSteps 2 { s with events := [.engineTurn, .bus (busWord true 3 (le32 b 0 0 0))] } = .next t ∧
      t.phase = .absorb ∧ t.err = false ∧ t.len = s.len + 8 ∧ t.bcount = 1 ∧ t.buf.read 0 = b ∧
      t.acc = addQuad s.acc s.work)

/-! ### The invariant -/

/-- The invariant holds after reset (70_reset_and_hazards.md section 1). -/
def Obligations.InvariantHoldsAtReset : Prop := Inv State.reset

/-- Every step keeps the invariant, whatever inputs wait: the buffer's canonical form, RND at rest, whole bytes in L,
BCOUNT in step with L, the working registers equal to the rounds done, the error record consistent (10_state.md sections
2 to 5, 42_compressor.md section 3). -/
def Obligations.InvariantKeptByEveryStep : Prop :=
  ∀ s t : State, Inv s → step s = .next t → Inv t

/-! ### The algorithm -/

/-- 42_compressor.md R180: the four round functions bit by bit. -/
def Obligations.RoundFunctionsActBitByBit : Prop :=
  ∀ (b c d : Word) (k : Nat), k < 32 →
    (fOf 0 b c d).getLsbD k = (if b.getLsbD k = true then c.getLsbD k else d.getLsbD k) ∧
    (fOf 1 b c d).getLsbD k = (if d.getLsbD k = true then b.getLsbD k else c.getLsbD k) ∧
    (fOf 2 b c d).getLsbD k = ((b.getLsbD k ^^ c.getLsbD k) ^^ d.getLsbD k) ∧
    (fOf 3 b c d).getLsbD k = (c.getLsbD k ^^ (b.getLsbD k || !d.getLsbD k))

/-- 42_compressor.md R183 and R184: every shift is in 4..23, and within each quarter every message word is used exactly
once. -/
def Obligations.ShiftsAndWordIndexesAreWellSpread : Prop :=
  (∀ i, i < 64 → 4 ≤ shiftOf i ∧ shiftOf i ≤ 23) ∧
  (∀ q j, q < 4 → j < 16 → ∃ i, i / 16 = q ∧ wordIndexOf i = j ∧ ∀ i', i' / 16 = q → wordIndexOf i' = j → i' = i)

/-- 41_padding.md section 1 (rule R162): the padded length is a whole number of blocks, `padBlocks` of them; the padding
is 9 to 72 bytes long; the message comes first and the last 8 bytes are its length in bits mod 2^64. -/
def Obligations.PaddingPostcondition : Prop :=
  ∀ msg : List Byte,
    (pad msg).length = 64 * padBlocks msg.length ∧
    msg.length + 9 ≤ (pad msg).length ∧ (pad msg).length ≤ msg.length + 72 ∧
    (pad msg).take msg.length = msg ∧ (pad msg).getD msg.length 0 = 0x80 ∧
    (∀ k, msg.length < k → k < (pad msg).length - 8 → (pad msg).getD k 1 = 0) ∧
    numberOfBytes ((pad msg).drop ((pad msg).length - 8)) = 8 * msg.length % 2 ^ 64

/-- 43_serializer.md section 1 (rule R222): the digest string is exactly 32 characters, each 0-9 or a-f, and it
determines the accumulator. -/
def Obligations.DigestStringIs32LowercaseHexCharacters : Prop :=
  (∀ h : Quad, (digestString h).length = 32 ∧
    ∀ c ∈ digestString h, (0x30 ≤ c.toNat ∧ c.toNat ≤ 0x39) ∨ (0x61 ≤ c.toNat ∧ c.toNat ≤ 0x66)) ∧
  (∀ h h' : Quad, digestString h = digestString h' → h = h')

/-- The source's two reference vectors, 95_test_vectors.md V1 and V2: the accumulators of "" and "abc". -/
def Obligations.ReferenceVectorsHold : Prop :=
  md5 [] = ⟨0xd98c1dd4, 0x04b2008f, 0x980980e9, 0x7e42f8ec⟩ ∧
  md5 [0x61, 0x62, 0x63] = ⟨0x98500190, 0xb04fd23c, 0x7d3f96d6, 0x727fe128⟩

/-! ### Whole hashes

That the Host's operations and the turns it leaves to the Engine are a list of inputs, and that a wait is long enough when
it leaves so many turns, is the model's own choice (notes/assumptions/1.md). -/

/-- 40_input.md on PUSH.W and PUSH.B, 20_memory.md section 4: a legal push extends the message by its bytes, in order; if it
completes a block, the message is extended once the Engine has done the block. The wait is that of notes/assumptions/1.md;
only a CLRERR in it changes the error record. -/
def Obligations.AcceptedPushExtendsTheMessage : Prop :=
  ∀ (s : State) (msg : List Byte) (p : HostPush) (wait : List Event),
    Absorbed s msg → pushAligned msg.length p = true → s.events = .bus (pushWord p) :: wait →
    wait.all isQuiet = true →
    ((msg.length + (pushBytes p).length) % 64 = 0 → 65 ≤ engineTurnsIn wait) →
    ∃ t, runSteps (1 + wait.length) s = .next t ∧ Absorbed t (msg ++ pushBytes p) ∧ t.events = [] ∧
      (clearsError wait = false → t.err = s.err ∧ t.errcode = s.errcode) ∧
      (clearsError wait = true → t.err = false ∧ t.errcode = .none)

/-- 41_padding.md section 2, 43_serializer.md section 2: from a message taken in, FINAL and 65 Engine steps for each padding
block lead to DONE with the message's MD5 in the accumulator. The wait is that of notes/assumptions/1.md; only a CLRERR in
it changes the error record. -/
def Obligations.FinalGivesTheDigest : Prop :=
  ∀ (s : State) (msg : List Byte) (wait : List Event),
    Absorbed s msg → s.events = .bus (busWord true 0 2) :: wait → wait.all isQuiet = true →
    65 * (if msg.length % 64 ≤ 55 then 1 else 2) ≤ engineTurnsIn wait →
    ∃ t, runSteps (1 + wait.length) s = .next t ∧ hashDone t ∧ t.acc = md5 msg ∧ t.events = [] ∧
      (clearsError wait = false → t.err = s.err ∧ t.errcode = s.errcode) ∧
      (clearsError wait = true → t.err = false ∧ t.errcode = .none)

/-- 70_reset_and_hazards.md section 2, the protocol: from any state in which no block runs, steps 1 to 4 (INIT, an optional
CLRERR, the pushes with a wait after each completed block, FINAL, the wait for DONE; reads and CLRERR may stand in any wait)
end in DONE with the MD5 of the bytes pushed, and no operation is refused: ERR is what it was, or 0 if a CLRERR was issued.
Step 5 then reads a STATUS that shows DONE = 1 and that ERR, and the digest it reads is the digest string of the message. The
list of inputs and the waits counted in turns are the model's own choice (notes/assumptions/1.md). -/
def Obligations.ProtocolComputesTheDigest : Prop :=
  ∀ (s : State) (start wait : List Event) (ps : List PushStep) (r : ReadOut),
    s.phase ≠ .compress → s.events = protocolEvents start ps wait r → start.all isQuiet = true →
    followsProtocol 0 ps = true → wait.all isQuiet = true →
    65 * (if (messageOf ps).length % 64 ≤ 55 then 1 else 2) ≤ engineTurnsIn wait →
    ∃ t, runSteps (hashEvents start ps wait).length s = .next t ∧ hashDone t ∧ t.acc = md5 (messageOf ps) ∧
      t.events = readOutEvents r ∧
      (clearsError (hashEvents start ps wait) = false → t.err = s.err ∧ t.errcode = s.errcode) ∧
      (clearsError (hashEvents start ps wait) = true → t.err = false ∧ t.errcode = .none) ∧
      ∃ status words, answers (readOutEvents r).length t = status :: words ∧
        status.getLsbD 1 = true ∧ errIsClear status = !t.err ∧
        digestRead r words = digestString (md5 (messageOf ps))

/-! ### The host's view -/

/-- 20_memory.md section 2: at every base that is a multiple of 128, an aligned word access of the window is the port access
of the register at that address; a narrower or misaligned one that begins in the window is no port access; an address
outside the window is not the core's. The model's own choice is that such an access is an input of its own, also where it
overlaps the window's top edge (notes/assumptions/5.md), and that host addresses have no upper end
(notes/assumptions/12.md). -/
def Obligations.WindowAccessesReachTheirRegisters : Prop :=
  ∀ base : Nat, base % 128 = 0 →
    (∀ (widx : BitVec 5) (write : Bool) (data : Word),
      routeAccess base ⟨registerAddress base widx, .word, write, data⟩ =
        some (.bus (busWord write widx (if write = true then data else 0)))) ∧
    (∀ (addr : Nat) (size : AccessSize) (write : Bool) (data : Word), base ≤ addr → addr < base + 128 →
      size ≠ .word ∨ addr % 4 ≠ 0 → routeAccess base ⟨addr, size, write, data⟩ = some .subword) ∧
    (∀ (addr : Nat) (size : AccessSize) (write : Bool) (data : Word),
      addr + accessBytes size ≤ base ∨ base + 128 ≤ addr → routeAccess base ⟨addr, size, write, data⟩ = none)

/-- 30_encoding.md R111: the lines of the pseudo-operations that are operations of the core are the operations they
name. -/
def Obligations.PseudoOperationsExpandToTheirOperations : Prop :=
  (expandPseudo .init).filterMap hostLineWord = [0x2000000001] ∧
  (expandPseudo .final).filterMap hostLineWord = [0x2000000002] ∧
  (expandPseudo .clrerr).filterMap hostLineWord = [0x2000000003] ∧
  (expandPseudo .sreset).filterMap hostLineWord = [0x2000000004] ∧
  (∀ v : Word, ((expandPseudo (.pushw v)).filterMap hostLineWord).map decode =
    [.pushW (lane v 0) (lane v 1) (lane v 2) (lane v 3)]) ∧
  (∀ text : List Byte, ((expandPseudo (.pushs text)).filterMap hostLineWord).map decode = text.map .pushB) ∧
  (∀ b : Byte, expandPseudo (.pushb b) = expandPseudo (.pushs [b])) ∧
  (expandPseudo .waitIdle).filterMap hostLineWord = [0x0100000000] ∧
  (expandPseudo .waitDone).filterMap hostLineWord = [0x0100000000] ∧
  (expandPseudo .rdDigest).filterMap hostLineWord = [0x0400000000, 0x0500000000, 0x0600000000, 0x0700000000]

/-! ### The reset input -/

/-- 70_reset_and_hazards.md section 1 with 44_control.md section 1: the reset input does what SRESET does, in every phase.
That it is an input which takes effect between two operations is the model's own (notes/assumptions/6.md). -/
def Obligations.ResetInputDoesWhatSresetDoes : Prop :=
  ∀ (s : State) (rest : List Event), s.events = .resetInput :: rest →
    step s = exec .cmdSreset { s with events := rest } ∧ ∃ t, step s = .next t ∧ t.events = rest ∧
      t.acc = ⟨0, 0, 0, 0⟩ ∧ t.work = ⟨0, 0, 0, 0⟩ ∧ t.rnd.val = 0 ∧ (∀ k, t.buf.read k = 0) ∧ t.bcount = 0 ∧
      t.len = 0 ∧ t.lenwrap = false ∧ t.phase = .idle ∧ t.next = .absorb ∧ t.err = false ∧ t.errcode = .none
end

