-- ==== Sys2Proof/Laws/Decode.lean ====
section
/-! SUPPORT. The laws of the fields of a bus-operation word and of the byte lanes. -/

namespace Sys2Proof

/-- Every bit of a bus-operation word (R100). -/
theorem getLsbD_busWord (b : Bool) (widx : BitVec 5) (data : Word) (i : Nat) :
    (busWord b widx data).getLsbD i =
      if i < 32 then data.getLsbD i else if i - 32 < 5 then widx.getLsbD (i - 32) else (decide (i = 37) && b) := by
  show BitVec.getLsbD (w := 1 + 5 + 32) (BitVec.ofBool b ++ widx ++ data) i = _
  rw [BitVec.getLsbD_append, BitVec.getLsbD_append, BitVec.getLsbD_ofBool]
  split
  · rfl
  · split
    · rfl
    · congr 1
      exact decide_eq_decide.mpr (by omega)

/-- Every bit of a word made of four bytes (R8). -/
theorem getLsbD_le32 (b0 b1 b2 b3 : Byte) (i : Nat) :
    (le32 b0 b1 b2 b3).getLsbD i =
      if i < 8 then b0.getLsbD i else if i - 8 < 8 then b1.getLsbD (i - 8)
      else if i - 16 < 8 then b2.getLsbD (i - 16) else b3.getLsbD (i - 24) := by
  show BitVec.getLsbD (w := 8 + 8 + 8 + 8) (b3 ++ b2 ++ b1 ++ b0) i = _
  rw [BitVec.getLsbD_append, BitVec.getLsbD_append, BitVec.getLsbD_append]
  simp only [Nat.sub_sub, Nat.reduceAdd]

@[simp] theorem opWrite_busWord (b : Bool) (widx : BitVec 5) (data : Word) : opWrite (busWord b widx data) = b := by
  rw [opWrite, getLsbD_busWord]
  simp

@[simp] theorem opWidx_busWord (b : Bool) (widx : BitVec 5) (data : Word) : opWidx (busWord b widx data) = widx := by
  apply BitVec.eq_of_getLsbD_eq
  intro i hi
  simp [opWidx, getLsbD_busWord, hi]

@[simp] theorem opData_busWord (b : Bool) (widx : BitVec 5) (data : Word) : opData (busWord b widx data) = data := by
  apply BitVec.eq_of_getLsbD_eq
  intro i hi
  simp [opData, getLsbD_busWord, hi]

/-- A bus-operation word is its three fields. -/
theorem busWord_fields (w : BusWord) : busWord (opWrite w) (opWidx w) (opData w) = w := by
  apply BitVec.eq_of_getLsbD_eq
  intro i hi
  rw [getLsbD_busWord]
  simp only [opData, opWidx, opWrite, BitVec.getLsbD_extractLsb']
  split
  · simp [*]
  · split
    · have : 32 + (i - 32) = i := by omega
      simp [*]
    · have : i = 37 := by omega
      subst this
      simp

/-- Decoding reads the three fields (R108). -/
theorem decode_busWord (b : Bool) (widx : BitVec 5) (data : Word) :
    decode (busWord b widx data) = if b = true then decodeWrite widx data else decodeRead widx data := by
  rw [decode, opWrite_busWord, opWidx_busWord, opData_busWord]

theorem decodeCommand_isEngineStep (data : Word) : (decodeCommand data).isEngineStep = false := by
  unfold decodeCommand
  split
  · rfl
  split
  · rfl
  split
  · rfl
  split <;> rfl

theorem decodePushB_isEngineStep (data : Word) : (decodePushB data).isEngineStep = false := by
  unfold decodePushB
  split <;> rfl

theorem decodeWrite_isEngineStep (widx : BitVec 5) (data : Word) : (decodeWrite widx data).isEngineStep = false := by
  unfold decodeWrite
  split
  · exact decodeCommand_isEngineStep data
  split
  · rfl
  split
  · rfl
  split
  · exact decodePushB_isEngineStep data
  split
  · rfl
  split
  · rfl
  split
  · rfl
  split
  · rfl
  split <;> rfl

theorem decodeRead_isRead (widx : BitVec 5) (data : Word) : (decodeRead widx data).isRead = true := by
  unfold decodeRead
  iterate 10
    split
    · rfl
  rfl

/-- A word with W = 0 decodes to a read. -/
theorem decode_isRead {w : BusWord} (h : opWrite w = false) : (decode w).isRead = true := by
  rw [decode, h, if_neg (by decide)]
  exact decodeRead_isRead _ _

theorem isEngineStep_of_isRead {i : Instr} (h : i.isRead = true) : i.isEngineStep = false := by
  cases i <;> first | rfl | cases h

/-- No bus-operation word is an Engine step (R109). -/
theorem decode_isEngineStep (w : BusWord) : (decode w).isEngineStep = false := by
  unfold decode
  split
  · exact decodeWrite_isEngineStep _ _
  · exact isEngineStep_of_isRead (decodeRead_isRead _ _)

@[simp] theorem lane_le32_zero (b0 b1 b2 b3 : Byte) : lane (le32 b0 b1 b2 b3) 0 = b0 := by
  apply BitVec.eq_of_getLsbD_eq
  intro i hi
  simp [lane, getLsbD_le32, hi]

@[simp] theorem lane_le32_one (b0 b1 b2 b3 : Byte) : lane (le32 b0 b1 b2 b3) 1 = b1 := by
  apply BitVec.eq_of_getLsbD_eq
  intro i hi
  simp [lane, getLsbD_le32, hi]

@[simp] theorem lane_le32_two (b0 b1 b2 b3 : Byte) : lane (le32 b0 b1 b2 b3) 2 = b2 := by
  apply BitVec.eq_of_getLsbD_eq
  intro i hi
  have h1 : ¬ 16 + i < 8 := by omega
  have h2 : ¬ 16 + i - 8 < 8 := by omega
  simp [lane, getLsbD_le32, hi, h1, h2]

@[simp] theorem lane_le32_three (b0 b1 b2 b3 : Byte) : lane (le32 b0 b1 b2 b3) 3 = b3 := by
  apply BitVec.eq_of_getLsbD_eq
  intro i hi
  have h1 : ¬ 24 + i < 8 := by omega
  have h2 : ¬ 24 + i - 8 < 8 := by omega
  have h3 : ¬ 24 + i - 16 < 8 := by omega
  simp [lane, getLsbD_le32, hi, h1, h2, h3]

/-- A word is its four lanes. -/
theorem le32_lanes (v : Word) : le32 (lane v 0) (lane v 1) (lane v 2) (lane v 3) = v := by
  apply BitVec.eq_of_getLsbD_eq
  intro i hi
  rw [getLsbD_le32]
  simp only [lane, BitVec.getLsbD_extractLsb']
  split
  · simp [*]
  · split
    · have : 8 * 1 + (i - 8) = i := by omega
      simp [*]
    · split
      · have : 8 * 2 + (i - 16) = i := by omega
        simp [*]
      · have h4 : i - 24 < 8 := by omega
        have : 8 * 3 + (i - 24) = i := by omega
        simp [*]

end Sys2Proof
end

