-- ==== Sys2Proof/Laws/Memory.lean ====
section
/-! SUPPORT. The laws of the block buffer: a read after a write, what a write leaves alone, the canonical form, and that
canonical buffers with the same bytes are equal. -/

namespace Sys2Proof.Machine

theorem getD_replicate_zero (n k : Nat) : (List.replicate n (0 : Byte)).getD k 0 = 0 := by
  rw [List.getD_eq_getElem?_getD, List.getElem?_replicate]
  split <;> rfl

/-! ### Reads -/

@[simp] theorem Memory.read_nil (k : Nat) : Memory.read [] k = 0 := rfl

theorem Memory.read_cons (m : Memory) (j k : Nat) (w : Byte) :
    Memory.read ((j, w) :: m) k = if j = k then w else m.read k := rfl

theorem Memory.read_erase (m : Memory) (a k : Nat) : (m.erase a).read k = if k = a then 0 else m.read k := by
  induction m with
  | nil => simp [Memory.erase]
  | cons c rest ih =>
    obtain ⟨j, w⟩ := c
    by_cases h : j = a
    · subst h
      rw [Memory.erase, if_pos rfl, ih]
      by_cases hk : k = j
      · simp [hk]
      · simp [Memory.read_cons, hk, Ne.symm hk]
    · by_cases hk : k = a
      · subst hk
        simp [Memory.erase, h, Memory.read_cons, ih]
      · simp [Memory.erase, h, Memory.read_cons, ih, hk]

theorem Memory.read_insert (m : Memory) (a k : Nat) (v : Byte) :
    (m.insert a v).read k = if k = a then v else m.read k := by
  induction m with
  | nil => simp [Memory.insert, Memory.read_cons, eq_comm]
  | cons c rest ih =>
    obtain ⟨j, w⟩ := c
    by_cases h : j < a
    · by_cases hk : k = a
      · subst hk
        simp [Memory.insert, h, Memory.read_cons, ih, Nat.ne_of_lt h]
      · simp [Memory.insert, h, Memory.read_cons, ih, hk]
    · by_cases hk : k = a
      · simp [Memory.insert, h, Memory.read_cons, hk]
      · simp [Memory.insert, h, Memory.read_cons, hk, Ne.symm hk]

/-- A read after a write: the byte written at its address, the byte before everywhere else. -/
theorem Memory.read_write (m : Memory) (a k : Nat) (v : Byte) :
    (m.write a v).read k = if k = a then v else m.read k := by
  unfold Memory.write
  by_cases hv : v = unlistedByte
  · simp [hv, Memory.read_erase, unlistedByte]
  · by_cases hk : k = a
    · simp [hv, Memory.read_insert, hk]
    · simp [hv, Memory.read_insert, Memory.read_erase, hk]

/-- A read after a write of several bytes. -/
theorem Memory.read_writeBytes (m : Memory) (a k : Nat) (bs : List Byte) :
    (m.writeBytes a bs).read k = if a ≤ k ∧ k < a + bs.length then bs.getD (k - a) 0 else m.read k := by
  induction bs generalizing m a with
  | nil => simp [Memory.writeBytes]
  | cons b bs ih =>
    rw [Memory.writeBytes, ih, Memory.read_write]
    by_cases h1 : k = a
    · subst h1
      simp
    · by_cases h2 : a + 1 ≤ k ∧ k < a + 1 + bs.length
      · have h3 : a ≤ k ∧ k < a + (b :: bs).length := by simp; omega
        have h4 : k - a = (k - (a + 1)) + 1 := by omega
        rw [if_pos h2, if_pos h3, h4, List.getD_cons_succ]
      · have h3 : ¬ (a ≤ k ∧ k < a + (b :: bs).length) := by simp; omega
        rw [if_neg h2, if_neg h3, if_neg h1]

/-! ### The canonical form -/

theorem Memory.wfFrom_cons (lo k : Nat) (v : Byte) (rest : Memory) :
    Memory.wfFrom lo ((k, v) :: rest) = true ↔ lo ≤ k ∧ k < 64 ∧ v ≠ 0 ∧ Memory.wfFrom (k + 1) rest = true := by
  simp [Memory.wfFrom, unlistedByte, and_assoc]

theorem Memory.wfFrom_mono {lo lo' : Nat} (h : lo ≤ lo') :
    ∀ {m : Memory}, Memory.wfFrom lo' m = true → Memory.wfFrom lo m = true
  | [], _ => rfl
  | (k, v) :: rest, hm => by
    rw [Memory.wfFrom_cons] at hm ⊢
    exact ⟨Nat.le_trans h hm.1, hm.2⟩

theorem Memory.wfFrom_erase (a : Nat) : ∀ {m : Memory} {lo : Nat}, Memory.wfFrom lo m = true →
    Memory.wfFrom lo (m.erase a) = true
  | [], _, _ => rfl
  | (k, v) :: rest, lo, hm => by
    rw [Memory.wfFrom_cons] at hm
    have ih := Memory.wfFrom_erase a hm.2.2.2
    by_cases h : k = a
    · simpa [Memory.erase, h] using Memory.wfFrom_mono (by omega) ih
    · simpa [Memory.erase, h, Memory.wfFrom_cons] using ⟨hm.1, hm.2.1, hm.2.2.1, ih⟩

theorem Memory.wfFrom_insert {a : Nat} {v : Byte} (ha : a < 64) (hv : v ≠ 0) : ∀ {m : Memory} {lo : Nat},
    lo ≤ a → (∀ c ∈ m, c.1 ≠ a) → Memory.wfFrom lo m = true → Memory.wfFrom lo (m.insert a v) = true
  | [], lo, hlo, _, _ => by
    rw [Memory.insert, Memory.wfFrom_cons]
    exact ⟨hlo, ha, hv, rfl⟩
  | (k, w) :: rest, lo, hlo, hne, hm => by
    rw [Memory.wfFrom_cons] at hm
    have hka : k ≠ a := hne (k, w) (by simp)
    by_cases h : k < a
    · have ih := Memory.wfFrom_insert ha hv (lo := k + 1) (by omega)
        (fun c hc => hne c (List.mem_cons_of_mem _ hc)) hm.2.2.2
      simpa [Memory.insert, h, Memory.wfFrom_cons] using ⟨hm.1, hm.2.1, hm.2.2.1, ih⟩
    · simp only [Memory.insert, h, ↓reduceIte, Memory.wfFrom_cons]
      exact ⟨hlo, ha, hv, by omega, hm.2.1, hm.2.2.1, hm.2.2.2⟩

theorem Memory.ne_of_mem_erase {m : Memory} {a : Nat} {c : Host.Cell} (h : c ∈ m.erase a) : c.1 ≠ a := by
  induction m with
  | nil => simp [Memory.erase] at h
  | cons d rest ih =>
    obtain ⟨k, v⟩ := d
    by_cases hk : k = a
    · exact ih (by simpa [Memory.erase, hk] using h)
    · simp only [Memory.erase, hk, ↓reduceIte, List.mem_cons] at h
      rcases h with rfl | h
      · exact hk
      · exact ih h

@[simp] theorem Memory.wf_nil : Memory.wf [] = true := rfl

/-- A write inside the buffer keeps the canonical form. -/
theorem Memory.wf_write {m : Memory} {a : Nat} (v : Byte) (ha : a < 64) (hm : m.wf = true) : (m.write a v).wf = true := by
  unfold Memory.write Memory.wf
  by_cases hv : v = unlistedByte
  · simpa [hv] using Memory.wfFrom_erase a hm
  · simpa [hv] using Memory.wfFrom_insert ha hv (Nat.zero_le a) (fun c => Memory.ne_of_mem_erase)
      (Memory.wfFrom_erase a hm)

/-- A write of several bytes inside the buffer keeps the canonical form. -/
theorem Memory.wf_writeBytes {m : Memory} {a : Nat} {bs : List Byte} (ha : a + bs.length ≤ 64) (hm : m.wf = true) :
    (m.writeBytes a bs).wf = true := by
  induction bs generalizing m a with
  | nil => exact hm
  | cons b bs ih =>
    simp only [List.length_cons] at ha
    exact ih (by omega) (Memory.wf_write b (by omega) hm)

theorem Memory.read_eq_zero_of_wfFrom {k : Nat} : ∀ {m : Memory} {lo : Nat}, Memory.wfFrom lo m = true → k < lo →
    m.read k = 0
  | [], _, _, _ => rfl
  | (j, v) :: rest, lo, hm, hk => by
    rw [Memory.wfFrom_cons] at hm
    rw [Memory.read_cons, if_neg (by omega)]
    exact Memory.read_eq_zero_of_wfFrom hm.2.2.2 (by omega)

theorem Memory.read_eq_zero_of_le {k : Nat} (hk : 64 ≤ k) : ∀ {m : Memory} {lo : Nat}, Memory.wfFrom lo m = true →
    m.read k = 0
  | [], _, _ => rfl
  | (j, v) :: rest, lo, hm => by
    rw [Memory.wfFrom_cons] at hm
    rw [Memory.read_cons, if_neg (by omega)]
    exact Memory.read_eq_zero_of_le hk hm.2.2.2

theorem Memory.eq_of_read_eq_from {lo : Nat} : ∀ {m m' : Memory}, Memory.wfFrom lo m = true → Memory.wfFrom lo m' = true →
    (∀ k, m.read k = m'.read k) → m = m'
  | [], [], _, _, _ => rfl
  | [], (j, v) :: rest, _, hm', h => by
    rw [Memory.wfFrom_cons] at hm'
    exact absurd (by simpa [Memory.read_cons] using (h j).symm) hm'.2.2.1
  | (j, v) :: rest, [], hm, _, h => by
    rw [Memory.wfFrom_cons] at hm
    exact absurd (by simpa [Memory.read_cons] using h j) hm.2.2.1
  | (j, v) :: rest, (j', v') :: rest', hm, hm', h => by
    rw [Memory.wfFrom_cons] at hm hm'
    have hj : j = j' := by
      rcases Nat.lt_trichotomy j j' with hlt | heq | hgt
      · have := h j
        rw [Memory.read_cons, if_pos rfl, Memory.read_cons, if_neg (by omega),
          Memory.read_eq_zero_of_wfFrom hm'.2.2.2 (by omega)] at this
        exact absurd this hm.2.2.1
      · exact heq
      · have := h j'
        rw [Memory.read_cons, if_neg (by omega), Memory.read_cons, if_pos rfl,
          Memory.read_eq_zero_of_wfFrom hm.2.2.2 (by omega)] at this
        exact absurd this.symm hm'.2.2.1
    subst hj
    have hv : v = v' := by simpa [Memory.read_cons] using h j
    subst hv
    refine congrArg _ (Memory.eq_of_read_eq_from hm.2.2.2 hm'.2.2.2 fun k => ?_)
    by_cases hk : j = k
    · subst hk
      rw [Memory.read_eq_zero_of_wfFrom hm.2.2.2 (by omega), Memory.read_eq_zero_of_wfFrom hm'.2.2.2 (by omega)]
    · simpa [Memory.read_cons, hk] using h k

/-- Canonical buffers with the same bytes are the same data. -/
theorem Memory.eq_of_read_eq {m m' : Memory} (hm : m.wf = true) (hm' : m'.wf = true)
    (h : ∀ k, k < 64 → m.read k = m'.read k) : m = m' := by
  refine Memory.eq_of_read_eq_from hm hm' fun k => ?_
  by_cases hk : k < 64
  · exact h k hk
  · rw [Memory.read_eq_zero_of_le (by omega) hm, Memory.read_eq_zero_of_le (by omega) hm']

/-! ### The block -/

@[simp] theorem Memory.length_block (m : Memory) : m.block.length = 64 := by simp [Memory.block]

theorem Memory.getD_block (m : Memory) {k : Nat} (hk : k < 64) : m.block.getD k 0 = m.read k := by
  simp [Memory.block, hk]

/-- A block of 64 bytes is the buffer's when the buffer holds its bytes. -/
theorem Memory.block_eq {m : Memory} {blk : List Byte} (hl : blk.length = 64)
    (h : ∀ k, k < 64 → m.read k = blk.getD k 0) : m.block = blk := by
  refine List.ext_getElem (by simp [hl]) fun k h1 h2 => ?_
  have hk : k < 64 := by simpa using h1
  rw [← List.getD_eq_getElem _ 0 h1, ← List.getD_eq_getElem _ 0 h2, Memory.getD_block m hk, h k hk]

end Sys2Proof.Machine
end

