-- ==== Sys2Proof/Laws/State.lean ====
section
/-! SUPPORT. What each shared update of the state does to each field: one lemma a field and an update. -/

namespace Sys2Proof.Machine

variable (s : State)

/-! ### recordError -/

@[simp] theorem recordError_acc (c : ErrCode) : (recordError c s).acc = s.acc := rfl
@[simp] theorem recordError_work (c : ErrCode) : (recordError c s).work = s.work := rfl
@[simp] theorem recordError_rnd (c : ErrCode) : (recordError c s).rnd = s.rnd := rfl
@[simp] theorem recordError_buf (c : ErrCode) : (recordError c s).buf = s.buf := rfl
@[simp] theorem recordError_bcount (c : ErrCode) : (recordError c s).bcount = s.bcount := rfl
@[simp] theorem recordError_len (c : ErrCode) : (recordError c s).len = s.len := rfl
@[simp] theorem recordError_lenwrap (c : ErrCode) : (recordError c s).lenwrap = s.lenwrap := rfl
@[simp] theorem recordError_phase (c : ErrCode) : (recordError c s).phase = s.phase := rfl
@[simp] theorem recordError_next (c : ErrCode) : (recordError c s).next = s.next := rfl
@[simp] theorem recordError_err (c : ErrCode) : (recordError c s).err = true := rfl
@[simp] theorem recordError_errcode (c : ErrCode) : (recordError c s).errcode = if s.err then s.errcode else c := rfl
@[simp] theorem recordError_readData (c : ErrCode) : (recordError c s).readData = s.readData := rfl
@[simp] theorem recordError_events (c : ErrCode) : (recordError c s).events = s.events := rfl

/-! ### clearError -/

@[simp] theorem clearError_acc : (clearError s).acc = s.acc := rfl
@[simp] theorem clearError_work : (clearError s).work = s.work := rfl
@[simp] theorem clearError_rnd : (clearError s).rnd = s.rnd := rfl
@[simp] theorem clearError_buf : (clearError s).buf = s.buf := rfl
@[simp] theorem clearError_bcount : (clearError s).bcount = s.bcount := rfl
@[simp] theorem clearError_len : (clearError s).len = s.len := rfl
@[simp] theorem clearError_lenwrap : (clearError s).lenwrap = s.lenwrap := rfl
@[simp] theorem clearError_phase : (clearError s).phase = s.phase := rfl
@[simp] theorem clearError_next : (clearError s).next = s.next := rfl
@[simp] theorem clearError_err : (clearError s).err = false := rfl
@[simp] theorem clearError_errcode : (clearError s).errcode = .none := rfl
@[simp] theorem clearError_readData : (clearError s).readData = s.readData := rfl
@[simp] theorem clearError_events : (clearError s).events = s.events := rfl

/-! ### addLength -/

@[simp] theorem addLength_acc (n : Nat) : (addLength n s).acc = s.acc := rfl
@[simp] theorem addLength_work (n : Nat) : (addLength n s).work = s.work := rfl
@[simp] theorem addLength_rnd (n : Nat) : (addLength n s).rnd = s.rnd := rfl
@[simp] theorem addLength_buf (n : Nat) : (addLength n s).buf = s.buf := rfl
@[simp] theorem addLength_bcount (n : Nat) : (addLength n s).bcount = s.bcount := rfl
@[simp] theorem addLength_len (n : Nat) : (addLength n s).len = BitVec.ofNat 64 (s.len.toNat + n) := rfl
@[simp] theorem addLength_lenwrap (n : Nat) : (addLength n s).lenwrap = (s.lenwrap || decide (2 ^ 64 ≤ s.len.toNat + n)) := rfl
@[simp] theorem addLength_phase (n : Nat) : (addLength n s).phase = s.phase := rfl
@[simp] theorem addLength_next (n : Nat) : (addLength n s).next = s.next := rfl
@[simp] theorem addLength_err (n : Nat) : (addLength n s).err = s.err := rfl
@[simp] theorem addLength_errcode (n : Nat) : (addLength n s).errcode = s.errcode := rfl
@[simp] theorem addLength_readData (n : Nat) : (addLength n s).readData = s.readData := rfl
@[simp] theorem addLength_events (n : Nat) : (addLength n s).events = s.events := rfl

/-! ### startCompress -/

@[simp] theorem startCompress_acc (nx : Next) : (startCompress nx s).acc = s.acc := rfl
@[simp] theorem startCompress_work (nx : Next) : (startCompress nx s).work = s.acc := rfl
@[simp] theorem startCompress_rnd (nx : Next) : (startCompress nx s).rnd = 0 := rfl
@[simp] theorem startCompress_buf (nx : Next) : (startCompress nx s).buf = s.buf := rfl
@[simp] theorem startCompress_bcount (nx : Next) : (startCompress nx s).bcount = 0 := rfl
@[simp] theorem startCompress_len (nx : Next) : (startCompress nx s).len = s.len := rfl
@[simp] theorem startCompress_lenwrap (nx : Next) : (startCompress nx s).lenwrap = s.lenwrap := rfl
@[simp] theorem startCompress_phase (nx : Next) : (startCompress nx s).phase = .compress := rfl
@[simp] theorem startCompress_next (nx : Next) : (startCompress nx s).next = nx := rfl
@[simp] theorem startCompress_err (nx : Next) : (startCompress nx s).err = s.err := rfl
@[simp] theorem startCompress_errcode (nx : Next) : (startCompress nx s).errcode = s.errcode := rfl
@[simp] theorem startCompress_readData (nx : Next) : (startCompress nx s).readData = s.readData := rfl
@[simp] theorem startCompress_events (nx : Next) : (startCompress nx s).events = s.events := rfl

/-! ### resetCore -/

@[simp] theorem resetCore_acc : (resetCore s).acc = ⟨0, 0, 0, 0⟩ := rfl
@[simp] theorem resetCore_work : (resetCore s).work = ⟨0, 0, 0, 0⟩ := rfl
@[simp] theorem resetCore_rnd : (resetCore s).rnd = 0 := rfl
@[simp] theorem resetCore_buf : (resetCore s).buf = [] := rfl
@[simp] theorem resetCore_bcount : (resetCore s).bcount = 0 := rfl
@[simp] theorem resetCore_len : (resetCore s).len = 0 := rfl
@[simp] theorem resetCore_lenwrap : (resetCore s).lenwrap = false := rfl
@[simp] theorem resetCore_phase : (resetCore s).phase = .idle := rfl
@[simp] theorem resetCore_next : (resetCore s).next = .absorb := rfl
@[simp] theorem resetCore_err : (resetCore s).err = false := rfl
@[simp] theorem resetCore_errcode : (resetCore s).errcode = .none := rfl
@[simp] theorem resetCore_readData : (resetCore s).readData = s.readData := rfl
@[simp] theorem resetCore_events : (resetCore s).events = s.events := rfl

/-! ### putOnPort -/

@[simp] theorem putOnPort_acc (w : BusWord) : (putOnPort w s).acc = s.acc := rfl
@[simp] theorem putOnPort_work (w : BusWord) : (putOnPort w s).work = s.work := rfl
@[simp] theorem putOnPort_rnd (w : BusWord) : (putOnPort w s).rnd = s.rnd := rfl
@[simp] theorem putOnPort_buf (w : BusWord) : (putOnPort w s).buf = s.buf := rfl
@[simp] theorem putOnPort_bcount (w : BusWord) : (putOnPort w s).bcount = s.bcount := rfl
@[simp] theorem putOnPort_len (w : BusWord) : (putOnPort w s).len = s.len := rfl
@[simp] theorem putOnPort_lenwrap (w : BusWord) : (putOnPort w s).lenwrap = s.lenwrap := rfl
@[simp] theorem putOnPort_phase (w : BusWord) : (putOnPort w s).phase = s.phase := rfl
@[simp] theorem putOnPort_next (w : BusWord) : (putOnPort w s).next = s.next := rfl
@[simp] theorem putOnPort_err (w : BusWord) : (putOnPort w s).err = s.err := rfl
@[simp] theorem putOnPort_errcode (w : BusWord) : (putOnPort w s).errcode = s.errcode := rfl
@[simp] theorem putOnPort_readData (w : BusWord) : (putOnPort w s).readData = s.readData := rfl
@[simp] theorem putOnPort_events (w : BusWord) : (putOnPort w s).events = .bus w :: s.events := rfl

/-! ### acceptBytes: what a push leaves alone, full block or not -/

@[simp] theorem acceptBytes_acc (bytes : List Byte) : (acceptBytes bytes s).acc = s.acc := by
  unfold acceptBytes
  dsimp only
  split <;> rfl

@[simp] theorem acceptBytes_err (bytes : List Byte) : (acceptBytes bytes s).err = s.err := by
  unfold acceptBytes
  dsimp only
  split <;> rfl

@[simp] theorem acceptBytes_errcode (bytes : List Byte) : (acceptBytes bytes s).errcode = s.errcode := by
  unfold acceptBytes
  dsimp only
  split <;> rfl

@[simp] theorem acceptBytes_readData (bytes : List Byte) : (acceptBytes bytes s).readData = s.readData := by
  unfold acceptBytes
  dsimp only
  split <;> rfl

@[simp] theorem acceptBytes_events (bytes : List Byte) : (acceptBytes bytes s).events = s.events := by
  unfold acceptBytes
  dsimp only
  split <;> rfl

@[simp] theorem acceptBytes_buf (bytes : List Byte) :
    (acceptBytes bytes s).buf = s.buf.writeBytes s.bcount.toNat bytes := by
  unfold acceptBytes
  dsimp only
  split <;> rfl

@[simp] theorem acceptBytes_len (bytes : List Byte) :
    (acceptBytes bytes s).len = BitVec.ofNat 64 (s.len.toNat + 8 * bytes.length) := by
  unfold acceptBytes
  dsimp only
  split <;> rfl

@[simp] theorem acceptBytes_lenwrap (bytes : List Byte) :
    (acceptBytes bytes s).lenwrap = (s.lenwrap || decide (2 ^ 64 ≤ s.len.toNat + 8 * bytes.length)) := by
  unfold acceptBytes
  dsimp only
  split <;> rfl

/-! ### finalPadding and afterCombine -/

@[simp] theorem finalPadding_acc : (finalPadding s).acc = s.acc := by
  unfold finalPadding
  dsimp only
  split <;> rfl

@[simp] theorem finalPadding_len : (finalPadding s).len = s.len := by
  unfold finalPadding
  dsimp only
  split <;> rfl

@[simp] theorem finalPadding_lenwrap : (finalPadding s).lenwrap = s.lenwrap := by
  unfold finalPadding
  dsimp only
  split <;> rfl

@[simp] theorem finalPadding_err : (finalPadding s).err = s.err := by
  unfold finalPadding
  dsimp only
  split <;> rfl

@[simp] theorem finalPadding_errcode : (finalPadding s).errcode = s.errcode := by
  unfold finalPadding
  dsimp only
  split <;> rfl

@[simp] theorem finalPadding_readData : (finalPadding s).readData = s.readData := by
  unfold finalPadding
  dsimp only
  split <;> rfl

@[simp] theorem finalPadding_events : (finalPadding s).events = s.events := by
  unfold finalPadding
  dsimp only
  split <;> rfl

@[simp] theorem afterCombine_acc : (afterCombine s).acc = s.acc := by
  unfold afterCombine
  split <;> rfl

@[simp] theorem afterCombine_len : (afterCombine s).len = s.len := by
  unfold afterCombine
  split <;> rfl

@[simp] theorem afterCombine_lenwrap : (afterCombine s).lenwrap = s.lenwrap := by
  unfold afterCombine
  split <;> rfl

@[simp] theorem afterCombine_err : (afterCombine s).err = s.err := by
  unfold afterCombine
  split <;> rfl

@[simp] theorem afterCombine_errcode : (afterCombine s).errcode = s.errcode := by
  unfold afterCombine
  split <;> rfl

@[simp] theorem afterCombine_readData : (afterCombine s).readData = s.readData := by
  unfold afterCombine
  split <;> rfl

@[simp] theorem afterCombine_events : (afterCombine s).events = s.events := by
  unfold afterCombine
  split <;> rfl

end Sys2Proof.Machine
end

