-- ==== Sys2Proof/Laws/Exec.lean ====
section
/-! SUPPORT. What each shared operation, each meaning and one turn can do, said once: later proofs cite these lemmas
instead of unfolding the definitions. -/

namespace Sys2Proof.Machine

/-! ### The error record and the phase checks -/

theorem raiseError_eq (c : ErrCode) (s : State) :
    raiseError c s = .next { s with err := true, errcode := if s.err = true then s.errcode else c } := rfl

theorem answer_eq (v : Word) (s : State) : answer v s = .next { s with readData := some v } := rfl

theorem whenAbsorbing_compress {act : State → Result} {s : State} (h : s.phase = .compress) :
    whenAbsorbing act s = raiseError .busy s := by simp [whenAbsorbing, h]

theorem whenAbsorbing_idle {act : State → Result} {s : State} (h : s.phase = .idle) :
    whenAbsorbing act s = raiseError .state s := by simp [whenAbsorbing, h]

theorem whenAbsorbing_done {act : State → Result} {s : State} (h : s.phase = .done) :
    whenAbsorbing act s = raiseError .state s := by simp [whenAbsorbing, h]

theorem whenAbsorbing_absorb {act : State → Result} {s : State} (h : s.phase = .absorb) :
    whenAbsorbing act s = act s := by simp [whenAbsorbing, h]

/-- The three things a checked operation can do. -/
theorem whenAbsorbing_cases {act : State → Result} (s : State) :
    (s.phase = .compress ∧ whenAbsorbing act s = raiseError .busy s) ∨
    ((s.phase = .idle ∨ s.phase = .done) ∧ whenAbsorbing act s = raiseError .state s) ∨
    (s.phase = .absorb ∧ whenAbsorbing act s = act s) := by
  cases h : s.phase
  · exact .inr (.inl ⟨.inl rfl, whenAbsorbing_idle h⟩)
  · exact .inr (.inr ⟨rfl, whenAbsorbing_absorb h⟩)
  · exact .inl ⟨rfl, whenAbsorbing_compress h⟩
  · exact .inr (.inl ⟨.inr rfl, whenAbsorbing_done h⟩)

/-! ### Accepting bytes, FINAL and the combine step -/

theorem acceptBytes_full {bytes : List Byte} {s : State} (h : s.bcount.toNat + bytes.length = 64) :
    acceptBytes bytes s =
      startCompress .absorb (addLength (8 * bytes.length) { s with buf := s.buf.writeBytes s.bcount.toNat bytes }) := by
  simp [acceptBytes, h]

theorem acceptBytes_partial {bytes : List Byte} {s : State} (h : s.bcount.toNat + bytes.length ≠ 64) :
    acceptBytes bytes s =
      { addLength (8 * bytes.length) { s with buf := s.buf.writeBytes s.bcount.toNat bytes } with
        bcount := BitVec.ofNat 6 (s.bcount.toNat + bytes.length) } := by
  simp [acceptBytes, h]

theorem finalPadding_short {s : State} (h : s.bcount.toNat ≤ 55) :
    finalPadding s = startCompress .done { s with buf := writeLength s.len (markEnd s.bcount.toNat s.buf) } := by
  simp [finalPadding, h]

theorem finalPadding_long {s : State} (h : 56 ≤ s.bcount.toNat) :
    finalPadding s = startCompress .pad2 { s with buf := markEnd s.bcount.toNat s.buf } := by
  have : ¬ s.bcount.toNat ≤ 55 := by omega
  simp [finalPadding, this]

@[simp] theorem length_le64Bytes (v : DWord) : (le64Bytes v).length = 8 := rfl

theorem getD_le64Bytes (v : DWord) {k : Nat} (hk : k < 8) : (le64Bytes v).getD k 0 = v.extractLsb' (8 * k) 8 := by
  rcases k with _ | _ | _ | _ | _ | _ | _ | _ | k <;> first | rfl | omega

/-- Every byte of the buffer after `buf[n] <- 0x80` and the zeros behind it (R164). -/
theorem read_markEnd {m : Memory} {n k : Nat} (hn : n ≤ 63) : (markEnd n m).read k =
    if k < n then m.read k else if k = n then 0x80 else if k < 64 then 0 else m.read k := by
  rw [markEnd, Memory.read_writeBytes]
  simp only [List.length_cons, List.length_replicate]
  by_cases h1 : k < n
  · rw [if_neg (by omega), if_pos h1]
  · by_cases h2 : k = n
    · subst h2
      rw [if_pos (by omega), if_neg h1, if_pos rfl]
      simp
    · by_cases h3 : k < 64
      · have h4 : k - n = (k - n - 1) + 1 := by omega
        rw [if_pos (by omega), if_neg h1, if_neg h2, if_pos h3, h4, List.getD_cons_succ, getD_replicate_zero]
      · rw [if_neg (by omega), if_neg h1, if_neg h2, if_neg h3]

/-- Every byte of the buffer after the length field is written (R164, R165). -/
theorem read_writeLength (len : DWord) (m : Memory) (k : Nat) : (writeLength len m).read k =
    if 56 ≤ k ∧ k < 64 then len.extractLsb' (8 * (k - 56)) 8 else m.read k := by
  rw [writeLength, Memory.read_writeBytes, length_le64Bytes]
  by_cases h : 56 ≤ k ∧ k < 64
  · rw [if_pos (by omega), if_pos h, getD_le64Bytes len (by omega)]
  · rw [if_neg (by omega), if_neg h]

/-- Every byte of the second padding block (R165). -/
theorem read_secondPadding (len : DWord) (m : Memory) (k : Nat) : (secondPadding len m).read k =
    if k < 56 then 0 else if k < 64 then len.extractLsb' (8 * (k - 56)) 8 else m.read k := by
  rw [secondPadding, read_writeLength, Memory.read_writeBytes]
  simp only [List.length_replicate]
  by_cases h1 : k < 56
  · rw [if_neg (by omega), if_pos (by omega), if_pos h1, getD_replicate_zero]
  · by_cases h2 : k < 64
    · rw [if_pos (by omega), if_neg h1, if_pos h2]
    · rw [if_neg (by omega), if_neg (by omega), if_neg h1, if_neg h2]

theorem wf_markEnd {m : Memory} {n : Nat} (hn : n ≤ 63) (hm : m.wf = true) : (markEnd n m).wf = true :=
  Memory.wf_writeBytes (by simp; omega) hm

theorem wf_writeLength {m : Memory} (len : DWord) (hm : m.wf = true) : (writeLength len m).wf = true :=
  Memory.wf_writeBytes (by simp) hm

theorem wf_secondPadding {m : Memory} (len : DWord) (hm : m.wf = true) : (secondPadding len m).wf = true :=
  wf_writeLength len (Memory.wf_writeBytes (by simp) hm)

theorem block_secondPadding (len : DWord) (m : Memory) :
    (secondPadding len m).block = List.replicate 56 0 ++ le64Bytes len := by
  refine Memory.block_eq (by simp) fun k hk => ?_
  rw [read_secondPadding]
  by_cases h : k < 56
  · rw [if_pos h, List.getD_append _ _ _ _ (by simpa using h), getD_replicate_zero]
  · rw [if_neg h, if_pos hk, List.getD_append_right _ _ _ _ (by simp; omega), List.length_replicate,
      getD_le64Bytes len (by omega)]

theorem afterCombine_absorb {s : State} (h : s.next = .absorb) : afterCombine s = { s with phase := .absorb } := by
  simp [afterCombine, h]

theorem afterCombine_done {s : State} (h : s.next = .done) : afterCombine s = { s with phase := .done } := by
  simp [afterCombine, h]

theorem afterCombine_pad2 {s : State} (h : s.next = .pad2) :
    afterCombine s = startCompress .done { s with buf := secondPadding s.len s.buf } := by
  simp [afterCombine, h]

/-! ### The Engine -/

theorem execEngRound_enabled {s : State} (h : s.phase = .compress) (hr : s.rnd.val < 64) :
    execEngRound s =
      .next { s with work := round s.rnd.val s.work s.buf.block, rnd := ⟨s.rnd.val + 1, by omega⟩ } := by
  simp [execEngRound, h, hr]

theorem execEngRound_disabled {s : State} (h : ¬ (s.phase = .compress ∧ s.rnd.val < 64)) :
    execEngRound s = .fault .engineStepDisabled := by
  unfold execEngRound
  by_cases h1 : s.phase = .compress
  · have h2 : ¬ s.rnd.val < 64 := fun h2 => h ⟨h1, h2⟩
    simp [h1, h2]
  · simp [h1]

theorem execEngCombine_enabled {s : State} (h : s.phase = .compress) (hr : s.rnd.val = 64) :
    execEngCombine s = .next (afterCombine { s with acc := addQuad s.acc s.work, rnd := 0 }) := by
  simp [execEngCombine, h, hr]

theorem execEngCombine_disabled {s : State} (h : ¬ (s.phase = .compress ∧ s.rnd.val = 64)) :
    execEngCombine s = .fault .engineStepDisabled := by
  simp only [execEngCombine, if_neg h]

theorem engineTurn_idle {s : State} (h : s.phase ≠ .compress) : engineTurn s = .next s := by
  simp [engineTurn, enabledEngineStep, h]

theorem engineTurn_round {s : State} (h : s.phase = .compress) (hr : s.rnd.val < 64) :
    engineTurn s = .next { s with work := round s.rnd.val s.work s.buf.block, rnd := ⟨s.rnd.val + 1, by omega⟩ } := by
  rw [← execEngRound_enabled h hr, engineTurn, enabledEngineStep, if_pos h, if_pos hr]
  rfl

theorem engineTurn_combine {s : State} (h : s.phase = .compress) (hr : s.rnd.val = 64) :
    engineTurn s = .next (afterCombine { s with acc := addQuad s.acc s.work, rnd := 0 }) := by
  have hr' : ¬ s.rnd.val < 64 := by omega
  rw [← execEngCombine_enabled h hr, engineTurn, enabledEngineStep, if_pos h, if_neg hr']
  rfl

/-- What a turn of the Engine can do. -/
theorem engineTurn_cases (s : State) :
    (s.phase ≠ .compress ∧ engineTurn s = .next s) ∨
    (∃ (_ : s.phase = .compress) (hr : s.rnd.val < 64), engineTurn s =
      .next { s with work := round s.rnd.val s.work s.buf.block, rnd := ⟨s.rnd.val + 1, by omega⟩ }) ∨
    (s.phase = .compress ∧ s.rnd.val = 64 ∧
      engineTurn s = .next (afterCombine { s with acc := addQuad s.acc s.work, rnd := 0 })) := by
  by_cases h : s.phase = .compress
  · by_cases hr : s.rnd.val < 64
    · exact .inr (.inl ⟨h, hr, engineTurn_round h hr⟩)
    · have hr' : s.rnd.val = 64 := by have := s.rnd.isLt; omega
      exact .inr (.inr ⟨h, hr', engineTurn_combine h hr'⟩)
  · exact .inl ⟨h, engineTurn_idle h⟩

/-! ### The operations that take in and close a message -/

theorem exec_cmdInit_busy {s : State} (h : s.phase = .compress) : exec .cmdInit s = raiseError .busy s := by
  rw [exec, execCmdInit, if_pos h]

theorem exec_cmdInit {s : State} (h : s.phase ≠ .compress) : exec .cmdInit s =
    .next { s with acc := iv, len := 0, lenwrap := false, buf := [], bcount := 0, phase := .absorb } := by
  rw [exec, execCmdInit, if_neg h]

theorem exec_cmdFinal {s : State} (h : s.phase = .absorb) : exec .cmdFinal s = .next (finalPadding s) := by
  rw [exec, execCmdFinal, whenAbsorbing_absorb h]

theorem exec_pushB {s : State} (b : Byte) (h : s.phase = .absorb) :
    exec (.pushB b) s = .next (acceptBytes [b] s) := by
  rw [exec, execPushB, whenAbsorbing_absorb h]

theorem exec_pushW {s : State} (b0 b1 b2 b3 : Byte) (h : s.phase = .absorb) (hb : s.bcount.toNat % 4 = 0) :
    exec (.pushW b0 b1 b2 b3) s = .next (acceptBytes [b0, b1, b2, b3] s) := by
  rw [exec, execPushW, whenAbsorbing_absorb h, if_neg (by omega)]

theorem exec_pushW_unaligned {s : State} (b0 b1 b2 b3 : Byte) (h : s.phase = .absorb) (hb : s.bcount.toNat % 4 ≠ 0) :
    exec (.pushW b0 b1 b2 b3) s = raiseError .align s := by
  rw [exec, execPushW, whenAbsorbing_absorb h, if_pos hb]

/-! ### What an operation can do -/

/-- A next state of `exec` is one of these: the error record, a value for the Host, or the effect of one accepted
operation. -/
theorem exec_next_cases {i : Instr} {s t : State} (h : exec i s = .next t) :
    (∃ c, c ≠ .none ∧ t = recordError c s ∧ i.isRead = false ∧ i ≠ .cmdClrErr ∧ i ≠ .cmdSreset ∧ i.isEngineStep = false) ∨
    (∃ v, i.isRead = true ∧ t = { s with readData := some v }) ∨
    (i = .cmdInit ∧ s.phase ≠ .compress ∧
      t = { s with acc := iv, len := 0, lenwrap := false, buf := [], bcount := 0, phase := .absorb }) ∨
    (i = .cmdFinal ∧ s.phase = .absorb ∧ t = finalPadding s) ∨
    (i = .cmdClrErr ∧ t = clearError s) ∨
    (i = .cmdSreset ∧ t = resetCore s) ∨
    (∃ b0 b1 b2 b3, i = .pushW b0 b1 b2 b3 ∧ s.phase = .absorb ∧ s.bcount.toNat % 4 = 0 ∧
      t = acceptBytes [b0, b1, b2, b3] s) ∨
    (∃ b, i = .pushB b ∧ s.phase = .absorb ∧ t = acceptBytes [b] s) ∨
    (∃ (_ : s.phase = .compress) (hr : s.rnd.val < 64), i = .engRound ∧
      t = { s with work := round s.rnd.val s.work s.buf.block, rnd := ⟨s.rnd.val + 1, by omega⟩ }) ∨
    (i = .engCombine ∧ s.phase = .compress ∧ s.rnd.val = 64 ∧
      t = afterCombine { s with acc := addQuad s.acc s.work, rnd := 0 }) := by
  have err : ∀ c, c ≠ .none → i.isRead = false → i ≠ .cmdClrErr → i ≠ .cmdSreset → i.isEngineStep = false →
      raiseError c s = .next t →
      ∃ c, c ≠ .none ∧ t = recordError c s ∧ i.isRead = false ∧ i ≠ .cmdClrErr ∧ i ≠ .cmdSreset ∧
        i.isEngineStep = false := by
    intro c hc h1 h2 h3 h4 h
    rw [raiseError, Host.Outcome.next.injEq] at h
    exact ⟨c, hc, h.symm, h1, h2, h3, h4⟩
  cases i with
  | cmdInit =>
    simp only [exec, execCmdInit] at h
    split at h
    · exact .inl (err .busy (by decide) rfl (by simp) (by simp) rfl h)
    · rw [Host.Outcome.next.injEq] at h
      exact .inr (.inr (.inl ⟨rfl, ‹_›, h.symm⟩))
  | cmdFinal =>
    simp only [exec, execCmdFinal] at h
    rcases whenAbsorbing_cases (act := fun t => .next (finalPadding t)) s with ⟨_, e⟩ | ⟨_, e⟩ | ⟨hp, e⟩ <;>
      rw [e] at h
    · exact .inl (err .busy (by decide) rfl (by simp) (by simp) rfl h)
    · exact .inl (err .state (by decide) rfl (by simp) (by simp) rfl h)
    · rw [Host.Outcome.next.injEq] at h
      exact .inr (.inr (.inr (.inl ⟨rfl, hp, h.symm⟩)))
  | cmdClrErr =>
    rw [exec, execCmdClrErr, Host.Outcome.next.injEq] at h
    exact .inr (.inr (.inr (.inr (.inl ⟨rfl, h.symm⟩))))
  | cmdSreset =>
    rw [exec, execCmdSreset, Host.Outcome.next.injEq] at h
    exact .inr (.inr (.inr (.inr (.inr (.inl ⟨rfl, h.symm⟩)))))
  | pushW b0 b1 b2 b3 =>
    simp only [exec, execPushW] at h
    rcases whenAbsorbing_cases
        (act := fun t => if t.bcount.toNat % 4 ≠ 0 then raiseError .align t
          else .next (acceptBytes [b0, b1, b2, b3] t)) s with ⟨_, e⟩ | ⟨_, e⟩ | ⟨hp, e⟩ <;>
      rw [e] at h
    · exact .inl (err .busy (by decide) rfl (by simp) (by simp) rfl h)
    · exact .inl (err .state (by decide) rfl (by simp) (by simp) rfl h)
    · split at h
      · exact .inl (err .align (by decide) rfl (by simp) (by simp) rfl h)
      · rename_i h4
        rw [Host.Outcome.next.injEq] at h
        exact .inr (.inr (.inr (.inr (.inr (.inr (.inl ⟨b0, b1, b2, b3, rfl, hp, by simpa using h4, h.symm⟩))))))
  | pushB b =>
    simp only [exec, execPushB] at h
    rcases whenAbsorbing_cases (act := fun t => .next (acceptBytes [b] t)) s with ⟨_, e⟩ | ⟨_, e⟩ | ⟨hp, e⟩ <;>
      rw [e] at h
    · exact .inl (err .busy (by decide) rfl (by simp) (by simp) rfl h)
    · exact .inl (err .state (by decide) rfl (by simp) (by simp) rfl h)
    · rw [Host.Outcome.next.injEq] at h
      exact .inr (.inr (.inr (.inr (.inr (.inr (.inr (.inl ⟨b, rfl, hp, h.symm⟩)))))))
  | engRound =>
    rw [exec] at h
    by_cases he : s.phase = .compress ∧ s.rnd.val < 64
    · rw [execEngRound_enabled he.1 he.2, Host.Outcome.next.injEq] at h
      exact .inr (.inr (.inr (.inr (.inr (.inr (.inr (.inr (.inl ⟨he.1, he.2, rfl, h.symm⟩))))))))
    · rw [execEngRound_disabled he] at h
      cases h
  | engCombine =>
    rw [exec] at h
    by_cases he : s.phase = .compress ∧ s.rnd.val = 64
    · rw [execEngCombine_enabled he.1 he.2, Host.Outcome.next.injEq] at h
      exact .inr (.inr (.inr (.inr (.inr (.inr (.inr (.inr (.inr ⟨rfl, he.1, he.2, h.symm⟩))))))))
    · rw [execEngCombine_disabled he] at h
      cases h
  | cmdIllegal data => exact .inl (err .badCmd (by decide) rfl (by simp) (by simp) rfl h)
  | pushBIllegal data => exact .inl (err .rsvd (by decide) rfl (by simp) (by simp) rfl h)
  | wrStatus data | wrDigest sel data | wrLen sel data | wrRsvd10 sel data | wrRsvd12 sel data | wrHex sel data
  | wrRsvd24 sel data => exact .inl (err .rowrite (by decide) rfl (by simp) (by simp) rfl h)
  | rdCtrl data | rdStatus data | rdMsgWord data | rdMsgByte data | rdDigest sel data | rdLenLo data | rdLenHi data
  | rdRsvd10 sel data | rdRsvd12 sel data | rdHex sel data | rdRsvd24 sel data =>
    exact .inr (.inl ⟨_, rfl, (Host.Outcome.next.inj h).symm⟩)

/-- A read answers a value and touches nothing else. -/
theorem exec_read {i : Instr} (h : i.isRead = true) (s : State) : ∃ v, exec i s = .next { s with readData := some v } := by
  cases i <;> first | exact ⟨_, rfl⟩ | cases h

/-! ### One step -/

theorem step_noEvent {s : State} (h : s.events = []) : step s = engineTurn s := by
  unfold step
  rw [h]

theorem step_event {s : State} {ev : Event} {rest : List Event} (h : s.events = ev :: rest) :
    step s = takeEvent ev { s with events := rest } := by
  unfold step
  rw [h]

/-- An access that the port cannot carry changes nothing of the core (R74). -/
theorem step_subword {rest : List Event} (h : s.events = .subword :: rest) :
    step s = .next { s with events := rest } := step_event h

/-- The two ways a step comes to its next state: an operation of the core, or nothing of the core changes but by the
reset input. -/
theorem step_next_cases {s t : State} (h : step s = .next t) :
    ∃ rest, (∃ i, exec i { s with events := rest } = .next t) ∨ t = { s with events := rest } ∨
      t = resetCore { s with events := rest } := by
  have turn : ∀ u : State, engineTurn u = .next t → (∃ i, exec i u = .next t) ∨ t = u := by
    intro u hu
    unfold engineTurn at hu
    split at hu
    · exact .inl ⟨_, hu⟩
    · exact .inr (Host.Outcome.next.inj hu).symm
  cases he : s.events with
  | nil =>
    rw [step_noEvent he] at h
    refine ⟨[], ?_⟩
    have hs : { s with events := [] } = s := by rw [← he]
    rw [hs]
    rcases turn s h with h | h
    · exact .inl h
    · exact .inr (.inl h)
  | cons ev rest =>
    rw [step_event he] at h
    refine ⟨rest, ?_⟩
    cases ev with
    | bus w => exact .inl ⟨_, h⟩
    | engineTurn =>
      rcases turn _ h with h | h
      · exact .inl h
      · exact .inr (.inl h)
    | resetInput => exact .inr (.inr (Host.Outcome.next.inj h).symm)
    | subword => exact .inr (.inl (Host.Outcome.next.inj h).symm)

end Sys2Proof.Machine
end

