-- ==== Sys2Proof/Laws/PerInstr.lean ====
section
/-! SUPPORT. One law of the encoding for each operation, by constructor: bit W of its word says whether it writes, and
only an Engine step has no word (30_encoding.md R100, R109). -/

namespace Sys2Proof.Laws

/-- The word of a bus operation has W = 0 exactly for a read; an Engine step has no word. -/
def Encoding.Statement (i : Instr) : Prop :=
  match encode i with
  | some w => i.isEngineStep = false ∧ opWrite w = !i.isRead
  | none => i.isEngineStep = true

theorem Encoding.cmdInit : Encoding.Statement .cmdInit := ⟨rfl, opWrite_busWord _ _ _⟩

theorem Encoding.cmdFinal : Encoding.Statement .cmdFinal := ⟨rfl, opWrite_busWord _ _ _⟩

theorem Encoding.cmdClrErr : Encoding.Statement .cmdClrErr := ⟨rfl, opWrite_busWord _ _ _⟩

theorem Encoding.cmdSreset : Encoding.Statement .cmdSreset := ⟨rfl, opWrite_busWord _ _ _⟩

theorem Encoding.cmdIllegal (data : Word) : Encoding.Statement (.cmdIllegal data) := ⟨rfl, opWrite_busWord _ _ _⟩

theorem Encoding.pushW (byte0 byte1 byte2 byte3 : Byte) : Encoding.Statement (.pushW byte0 byte1 byte2 byte3) := ⟨rfl, opWrite_busWord _ _ _⟩

theorem Encoding.pushB (byte : Byte) : Encoding.Statement (.pushB byte) := ⟨rfl, opWrite_busWord _ _ _⟩

theorem Encoding.pushBIllegal (data : Word) : Encoding.Statement (.pushBIllegal data) := ⟨rfl, opWrite_busWord _ _ _⟩

theorem Encoding.wrStatus (data : Word) : Encoding.Statement (.wrStatus data) := ⟨rfl, opWrite_busWord _ _ _⟩

theorem Encoding.wrDigest (sel : BitVec 2) (data : Word) : Encoding.Statement (.wrDigest sel data) := ⟨rfl, opWrite_busWord _ _ _⟩

theorem Encoding.wrLen (sel : BitVec 1) (data : Word) : Encoding.Statement (.wrLen sel data) := ⟨rfl, opWrite_busWord _ _ _⟩

theorem Encoding.wrRsvd10 (sel : BitVec 1) (data : Word) : Encoding.Statement (.wrRsvd10 sel data) := ⟨rfl, opWrite_busWord _ _ _⟩

theorem Encoding.wrRsvd12 (sel : BitVec 2) (data : Word) : Encoding.Statement (.wrRsvd12 sel data) := ⟨rfl, opWrite_busWord _ _ _⟩

theorem Encoding.wrHex (sel : BitVec 3) (data : Word) : Encoding.Statement (.wrHex sel data) := ⟨rfl, opWrite_busWord _ _ _⟩

theorem Encoding.wrRsvd24 (sel : BitVec 3) (data : Word) : Encoding.Statement (.wrRsvd24 sel data) := ⟨rfl, opWrite_busWord _ _ _⟩

theorem Encoding.rdCtrl (data : Word) : Encoding.Statement (.rdCtrl data) := ⟨rfl, opWrite_busWord _ _ _⟩

theorem Encoding.rdStatus (data : Word) : Encoding.Statement (.rdStatus data) := ⟨rfl, opWrite_busWord _ _ _⟩

theorem Encoding.rdMsgWord (data : Word) : Encoding.Statement (.rdMsgWord data) := ⟨rfl, opWrite_busWord _ _ _⟩

theorem Encoding.rdMsgByte (data : Word) : Encoding.Statement (.rdMsgByte data) := ⟨rfl, opWrite_busWord _ _ _⟩

theorem Encoding.rdDigest (sel : BitVec 2) (data : Word) : Encoding.Statement (.rdDigest sel data) := ⟨rfl, opWrite_busWord _ _ _⟩

theorem Encoding.rdLenLo (data : Word) : Encoding.Statement (.rdLenLo data) := ⟨rfl, opWrite_busWord _ _ _⟩

theorem Encoding.rdLenHi (data : Word) : Encoding.Statement (.rdLenHi data) := ⟨rfl, opWrite_busWord _ _ _⟩

theorem Encoding.rdRsvd10 (sel : BitVec 1) (data : Word) : Encoding.Statement (.rdRsvd10 sel data) := ⟨rfl, opWrite_busWord _ _ _⟩

theorem Encoding.rdRsvd12 (sel : BitVec 2) (data : Word) : Encoding.Statement (.rdRsvd12 sel data) := ⟨rfl, opWrite_busWord _ _ _⟩

theorem Encoding.rdHex (sel : BitVec 3) (data : Word) : Encoding.Statement (.rdHex sel data) := ⟨rfl, opWrite_busWord _ _ _⟩

theorem Encoding.rdRsvd24 (sel : BitVec 3) (data : Word) : Encoding.Statement (.rdRsvd24 sel data) := ⟨rfl, opWrite_busWord _ _ _⟩

theorem Encoding.engRound : Encoding.Statement .engRound := rfl

theorem Encoding.engCombine : Encoding.Statement .engCombine := rfl

end Sys2Proof.Laws
end

