-- ==== Sys2Proof/Laws/Run.lean ====
section
/-! SUPPORT. Runs of several steps, and what a wait of the Host does (turns for the Engine and reads). -/

namespace Sys2Proof.Machine

/-! ### Runs -/

@[simp] theorem runSteps_zero (s : State) : runSteps 0 s = .next s := rfl

/-- A run that begins with a step to `t` goes on from `t`. -/
theorem runSteps_succ {k : Nat} {s t : State} (h : step s = .next t) : runSteps (k + 1) s = runSteps k t := by
  rw [runSteps, h]

/-- A run of `m + n` steps is a run of `m` steps and then one of `n`. -/
theorem runSteps_add {m n : Nat} {s t : State} (h : runSteps m s = .next t) : runSteps (m + n) s = runSteps n t := by
  induction m generalizing s with
  | zero =>
    rw [runSteps_zero, Host.Outcome.next.injEq] at h
    rw [h, Nat.zero_add]
  | succ m ih =>
    cases hs : step s with
    | next u =>
      rw [runSteps_succ hs] at h
      rw [Nat.succ_add, runSteps_succ hs, ih h]
    | fault r => rw [runSteps, hs] at h; cases h
    | refused r => rw [runSteps, hs] at h; cases h

theorem hostRun_next {M : Host.Core} {k : Nat} {s t : M.State} (h : M.step s = .next t) :
    M.run (k + 1) s = M.run k t := by rw [Host.Core.run, h]

theorem hostRun_fault {M : Host.Core} {k : Nat} {s : M.State} {r : M.Fault} (h : M.step s = .fault r) :
    M.run (k + 1) s = .fault r := by rw [Host.Core.run, h]

theorem hostRun_refused {M : Host.Core} {k : Nat} {s : M.State} {r : M.Refusal} (h : M.step s = .refused r) :
    M.run (k + 1) s = .refused r := by rw [Host.Core.run, h]

/-- `runSteps` is the host's own run of this core. -/
theorem runSteps_eq_run (k : Nat) (s : State) : runSteps k s = Host.Core.run core k s := by
  induction k generalizing s with
  | zero => rfl
  | succ k ih =>
    rw [runSteps]
    cases h : step s with
    | next t => exact (ih t).trans (hostRun_next (M := core) h).symm
    | fault r => exact (hostRun_fault (M := core) h).symm
    | refused r => exact (hostRun_refused (M := core) h).symm

/-! ### The core apart from its boundary -/

/-- `s` with another error record and other boundary fields: what the Host was told and what still waits. -/
def atBoundary (s : State) (e : Bool) (c : ErrCode) (v : Option Word) (evs : List Event) : State :=
  { s with err := e, errcode := c, readData := v, events := evs }

section
variable (s : State) (e e' : Bool) (c c' : ErrCode) (v v' : Option Word) (evs evs' : List Event)

@[simp] theorem atBoundary_acc : (atBoundary s e c v evs).acc = s.acc := rfl
@[simp] theorem atBoundary_work : (atBoundary s e c v evs).work = s.work := rfl
@[simp] theorem atBoundary_rnd : (atBoundary s e c v evs).rnd = s.rnd := rfl
@[simp] theorem atBoundary_buf : (atBoundary s e c v evs).buf = s.buf := rfl
@[simp] theorem atBoundary_bcount : (atBoundary s e c v evs).bcount = s.bcount := rfl
@[simp] theorem atBoundary_len : (atBoundary s e c v evs).len = s.len := rfl
@[simp] theorem atBoundary_lenwrap : (atBoundary s e c v evs).lenwrap = s.lenwrap := rfl
@[simp] theorem atBoundary_phase : (atBoundary s e c v evs).phase = s.phase := rfl
@[simp] theorem atBoundary_next : (atBoundary s e c v evs).next = s.next := rfl
@[simp] theorem atBoundary_err : (atBoundary s e c v evs).err = e := rfl
@[simp] theorem atBoundary_errcode : (atBoundary s e c v evs).errcode = c := rfl
@[simp] theorem atBoundary_readData : (atBoundary s e c v evs).readData = v := rfl
@[simp] theorem atBoundary_events : (atBoundary s e c v evs).events = evs := rfl
@[simp] theorem atBoundary_atBoundary :
    atBoundary (atBoundary s e c v evs) e' c' v' evs' = atBoundary s e' c' v' evs' := rfl
theorem atBoundary_self : atBoundary s s.err s.errcode s.readData s.events = s := rfl

end

/-- The record after an input of a wait: CLRERR clears it, nothing else changes it. -/
theorem step_quiet {s : State} {ev : Event} {rest : List Event} (h : s.events = ev :: rest) (hq : isQuiet ev = true) :
    (ev = .engineTurn ∧ step s = engineTurn (atBoundary s s.err s.errcode s.readData rest)) ∨
    (ev ≠ .engineTurn ∧ ∃ v, step s =
      .next (atBoundary s (if isClrErr ev then false else s.err) (if isClrErr ev then .none else s.errcode) v rest)) := by
  rw [step_event h]
  cases ev with
  | engineTurn => exact .inl ⟨rfl, rfl⟩
  | bus w =>
    refine .inr ⟨by simp, ?_⟩
    by_cases hw : w = clrErrWord
    · subst hw
      exact ⟨s.readData, rfl⟩
    · have hr : opWrite w = false := by simpa [isQuiet, hw] using hq
      have hc : isClrErr (.bus w) = false := by simp [isClrErr, hw]
      obtain ⟨v, hv⟩ := exec_read (decode_isRead hr) { s with events := rest }
      refine ⟨some v, ?_⟩
      rw [hc]
      exact hv
  | resetInput => cases hq
  | subword => cases hq

theorem afterCombine_atBoundary (s : State) (e : Bool) (c : ErrCode) (v : Option Word) (evs : List Event) :
    afterCombine (atBoundary s e c v evs) = atBoundary (afterCombine s) e c v evs := by
  obtain ⟨acc, work, rnd, buf, bcount, len, lenwrap, phase, next, err, errcode, readData, events⟩ := s
  cases next <;> rfl

/-- The Engine's turn does not look at the boundary. -/
theorem engineTurn_atBoundary {s t : State} (h : engineTurn s = .next t) (e : Bool) (c : ErrCode) (v : Option Word)
    (evs : List Event) : engineTurn (atBoundary s e c v evs) = .next (atBoundary t e c v evs) := by
  rcases engineTurn_cases s with ⟨hp, hs⟩ | ⟨hp, hr, hs⟩ | ⟨hp, hr, hs⟩ <;> rw [hs, Host.Outcome.next.injEq] at h <;>
    subst h
  · exact engineTurn_idle (s := atBoundary s e c v evs) hp
  · exact engineTurn_round (s := atBoundary s e c v evs) hp hr
  · rw [engineTurn_combine (s := atBoundary s e c v evs) hp hr]
    rw [← afterCombine_atBoundary]
    rfl

/-- `k` turns of the Engine alone. -/
def engineTurns : Nat → State → State
  | 0, s => s
  | k + 1, s =>
    match engineTurn s with
    | .next t => engineTurns k t
    | .fault _ => s
    | .refused _ => s

theorem engineTurn_next (s : State) : ∃ t, engineTurn s = .next t := by
  rcases engineTurn_cases s with ⟨_, e⟩ | ⟨_, _, e⟩ | ⟨_, _, e⟩ <;> exact ⟨_, e⟩

theorem engineTurns_succ {k : Nat} {s t : State} (h : engineTurn s = .next t) :
    engineTurns (k + 1) s = engineTurns k t := by
  show (match engineTurn s with
    | .next t => engineTurns k t
    | .fault _ => s
    | .refused _ => s) = _
  rw [h]

theorem engineTurns_add (m n : Nat) (s : State) : engineTurns (m + n) s = engineTurns n (engineTurns m s) := by
  induction m generalizing s with
  | zero => rw [Nat.zero_add]; rfl
  | succ m ih =>
    obtain ⟨t, ht⟩ := engineTurn_next s
    rw [Nat.succ_add, engineTurns_succ ht, engineTurns_succ ht, ih]

/-- While no block runs the Engine's turns change nothing. -/
theorem engineTurns_idle {s : State} (h : s.phase ≠ .compress) (k : Nat) : engineTurns k s = s := by
  induction k with
  | zero => rfl
  | succ k ih => rw [engineTurns_succ (engineTurn_idle h), ih]

theorem engineTurns_atBoundary (k : Nat) (s : State) (e : Bool) (c : ErrCode) (v : Option Word) (evs : List Event) :
    engineTurns k (atBoundary s e c v evs) = atBoundary (engineTurns k s) e c v evs := by
  induction k generalizing s with
  | zero => rfl
  | succ k ih =>
    obtain ⟨t, ht⟩ := engineTurn_next s
    rw [engineTurns_succ ht, engineTurns_succ (engineTurn_atBoundary ht e c v evs), ih]

/-- A whole wait is the Engine's turns in it; apart from them only the error record, if CLRERR is in it, and what the Host
was told change. -/
theorem run_wait {s : State} {wait rest : List Event} (h : s.events = wait ++ rest) (hq : wait.all isQuiet = true) :
    ∃ v, runSteps wait.length s =
      .next (atBoundary (engineTurns (engineTurnsIn wait) s) (if clearsError wait then false else s.err)
        (if clearsError wait then .none else s.errcode) v rest) := by
  induction wait generalizing s with
  | nil =>
    refine ⟨s.readData, ?_⟩
    rw [List.nil_append] at h
    rw [← h]
    rfl
  | cons ev wait ih =>
    rw [List.all_cons, Bool.and_eq_true] at hq
    rcases step_quiet (by simpa using h) hq.1 with ⟨rfl, hs⟩ | ⟨hne, v, hs⟩
    · obtain ⟨t, ht⟩ := engineTurn_next s
      rw [engineTurn_atBoundary ht] at hs
      obtain ⟨v, hv⟩ := ih (s := atBoundary t s.err s.errcode s.readData (wait ++ rest)) rfl hq.2
      refine ⟨v, ?_⟩
      rw [List.length_cons, runSteps_succ hs, hv, engineTurns_atBoundary]
      have : engineTurnsIn (.engineTurn :: wait) = engineTurnsIn wait + 1 := by simp [engineTurnsIn]
      rw [this, engineTurns_succ ht]
      rfl
    · obtain ⟨v', hv⟩ := ih (s := atBoundary s _ _ v (wait ++ rest)) rfl hq.2
      refine ⟨v', ?_⟩
      rw [List.length_cons, runSteps_succ hs, hv, engineTurns_atBoundary]
      have hturns : engineTurnsIn (ev :: wait) = engineTurnsIn wait := by
        simp [engineTurnsIn, hne]
      have hclears : clearsError (ev :: wait) = (isClrErr ev || clearsError wait) := rfl
      rw [hturns, hclears]
      cases isClrErr ev <;> cases clearsError wait <;> rfl

end Sys2Proof.Machine
end

