-- ==== Sys2Proof/Tests/Slice0.lean ====
section
/-! SUPPORT. Tests: the well-formedness smoke test, one written-out word for every constructor, single steps against the
vectors of 95_test_vectors.md, and a witness for the hypotheses of every statement. -/

namespace Sys2Proof.Tests

open Sys2Proof Sys2Proof.Machine

/-! ### Helpers -/

/-- The next state, if there is one. -/
def nextOf (r : Result) : Option State :=
  match r with
  | .next s => some s
  | .fault _ => none
  | .refused _ => none

theorem not_next_of_nextOf {r : Result} (h : nextOf r = none) (t : State) : r ≠ .next t := by
  rintro rfl
  cases h

/-- The state after one step that runs the bus operation with these bits. -/
def after (s : State) (w : Nat) : Option State := nextOf (step (s.withFetchWord 38 w))

/-- What STATUS shows after that step. -/
def statusAfter (s : State) (w : Nat) : Option Word := (after s w).map statusWord

/-- What the Host is told by that step. -/
def readAfter (s : State) (w : Nat) : Option Word := (after s w).bind (·.readData)

/-- ABSORB with these bytes, fewer than 64, pushed since INIT. -/
def collecting (bytes : List Byte) : State :=
  { State.reset with
    acc := iv
    buf := Memory.writeBytes [] 0 bytes
    bcount := BitVec.ofNat 6 bytes.length
    len := BitVec.ofNat 64 (8 * bytes.length)
    phase := .absorb }

/-- n times "A". -/
def letters (n : Nat) : List Byte := List.replicate n 0x41

/-- 95_test_vectors.md section 2.11, "COMPRESS (block 1 running)". -/
def running : State :=
  { State.reset with acc := iv, work := iv, buf := Memory.writeBytes [] 0 (letters 64), len := 512, phase := .compress }

/-- 95_test_vectors.md section 2.11, "DONE (abc)". -/
def doneAbc : State :=
  { State.reset with acc := ⟨0x98500190, 0xb04fd23c, 0x7d3f96d6, 0x727fe128⟩, len := 24, phase := .done, next := .done }

/-- 95_test_vectors.md section 2.11, "ERR = 1, ERRCODE = E_STATE, IDLE". -/
def erred : State := { State.reset with err := true, errcode := .state }

/-- The "abc" block (T-PAD-2) compressing, before round n with these working registers. -/
def abcRound (n : Fin 65) (work : Quad) : State :=
  { State.reset with
    acc := iv
    work := work
    rnd := n
    buf := [(0, 0x61), (1, 0x62), (2, 0x63), (3, 0x80), (56, 0x18)]
    len := 24
    phase := .compress
    next := .done }

/-- `n` turns left to the Engine. -/
def turns (n : Nat) : List Event := List.replicate n .engineTurn

/-! ### WellFormed: an ill-formed term for each check -/

theorem test_wf_refuses_legal_commands_as_illegal :
    (Instr.cmdIllegal 1).wf = false ∧ (Instr.cmdIllegal 2).wf = false ∧ (Instr.cmdIllegal 3).wf = false ∧
    (Instr.cmdIllegal 4).wf = false := by decide

theorem test_wf_refuses_legal_bytes_as_illegal :
    (Instr.pushBIllegal 0).wf = false ∧ (Instr.pushBIllegal 0xff).wf = false := by decide

theorem test_wf_accepts_the_catch_all_rows :
    (Instr.cmdIllegal 0).wf = true ∧ (Instr.cmdIllegal 5).wf = true ∧ (Instr.cmdIllegal 0x101).wf = true ∧
    (Instr.pushBIllegal 0x100).wf = true := by decide

/-! ### Decode: a word written out from 30_encoding.md for every constructor -/

/-- W = 1, WIDX = 00000, DATA as R103 gives it. -/
theorem test_decode_commands :
    decode 0b1_00000_00000000000000000000000000000001 = .cmdInit ∧
    decode 0b1_00000_00000000000000000000000000000010 = .cmdFinal ∧
    decode 0b1_00000_00000000000000000000000000000011 = .cmdClrErr ∧
    decode 0b1_00000_00000000000000000000000000000100 = .cmdSreset ∧
    decode 0b1_00000_00000000000000000000000100000001 = .cmdIllegal 0x101 := by decide

/-- W = 1, WIDX = 00010 or 00011 (R104, R105). -/
theorem test_decode_pushes :
    decode 0b1_00010_01100100_01100011_01100010_01100001 = .pushW 0x61 0x62 0x63 0x64 ∧
    decode 0b1_00011_00000000_00000000_00000000_01100001 = .pushB 0x61 ∧
    decode 0b1_00011_00000000_00000000_00000001_01100010 = .pushBIllegal 0x162 := by decide

/-- W = 1 and a read-only or reserved WIDX (R102, R107). -/
theorem test_decode_refused_writes :
    decode 0b1_00001_00000000000000000000000000000101 = .wrStatus 5 ∧
    decode 0b1_00101_00000000000000000000000000000000 = .wrDigest 1 0 ∧
    decode 0b1_01001_00000000000000000000000000000111 = .wrLen 1 7 ∧
    decode 0b1_01010_00000000000000000000000000000000 = .wrRsvd10 0 0 ∧
    decode 0b1_01100_00000000000000000000000000000001 = .wrRsvd12 0 1 ∧
    decode 0b1_10011_00000000000000000000000000000000 = .wrHex 3 0 ∧
    decode 0b1_11110_10000000000000000000000000000000 = .wrRsvd24 6 0x80000000 := by decide

/-- W = 0 (R102). -/
theorem test_decode_reads :
    decode 0b0_00000_00000000000000000000000000000000 = .rdCtrl 0 ∧
    decode 0b0_00001_00000000000000000000000000000000 = .rdStatus 0 ∧
    decode 0b0_00010_00000000000000000000000000000000 = .rdMsgWord 0 ∧
    decode 0b0_00011_00000000000000000000000000000000 = .rdMsgByte 0 ∧
    decode 0b0_00110_00000000000000000000000000000000 = .rdDigest 2 0 ∧
    decode 0b0_01000_00000000000000000000000000000000 = .rdLenLo 0 ∧
    decode 0b0_01001_00000000000000000000000000000000 = .rdLenHi 0 ∧
    decode 0b0_01011_00000000000000000000000000000000 = .rdRsvd10 1 0 ∧
    decode 0b0_01110_00000000000000000000000000000000 = .rdRsvd12 2 0 ∧
    decode 0b0_10101_00000000000000000000000000000000 = .rdHex 5 0 ∧
    decode 0b0_11111_00000000000000000000000000000000 = .rdRsvd24 7 0 := by decide

/-- Bytes that are no bus-operation word are rejected by name; the low byte comes first. -/
theorem test_decode_bytes :
    decodeBytes [0x01, 0, 0, 0, 0x20] = .ok .cmdInit ∧ decodeBytes [0x01, 0, 0, 0, 0x40] = .error .bitsAbove37 ∧
    decodeBytes [0x01, 0, 0, 0] = .error .wrongLength ∧ decodeBytes [] = .error .wrongLength :=
  ⟨rfl, rfl, rfl, rfl⟩

theorem test_decode_table_word :
    decodeTableWord 40 0x2000000002 = some .cmdFinal ∧ decodeTableWord 40 0x6000000002 = none ∧
    decodeTableWord 48 0x12000000002 = none := ⟨rfl, rfl, rfl⟩

/-! ### Single steps, against 95_test_vectors.md -/

theorem test_init_T_CTL_2 : statusAfter (collecting (letters 3)) 0x2000000001 = some 0x00000010 := by decide
theorem test_init_T_CTL_4 : statusAfter running 0x2000000001 = some 0x00000225 := by decide
theorem test_final_T_PAD_2 : (after (collecting [0x61, 0x62, 0x63]) 0x2000000002).map (·.buf.block) =
    some ([0x61, 0x62, 0x63, 0x80] ++ List.replicate 52 0 ++ [0x18, 0, 0, 0, 0, 0, 0, 0]) := by decide
theorem test_final_T_PAD_5 : (after (collecting (letters 63)) 0x2000000002).map (fun t => (t.buf.block, t.next)) =
    some (letters 63 ++ [0x80], .pad2) := by decide
theorem test_clrerr_T_CTL_9 : statusAfter erred 0x2000000003 = some 0 := by decide
theorem test_sreset_T_CTL_10 : statusAfter running 0x2000000004 = some 0 := by decide
theorem test_illegal_T_CTL_13 : statusAfter State.reset 0x2000000101 = some 0x00000104 := by decide
theorem test_illegal_T_CTL_14 : statusAfter running 0x20000000ff = some 0x00000125 := by decide

theorem test_pushW_T_IN_1 : (after (collecting []) 0x2264636261).map (fun t => (t.buf.block.take 4, t.len)) =
    some ([0x61, 0x62, 0x63, 0x64], 32) := by decide
theorem test_pushW_T_LEN_4 :
    statusAfter { collecting [] with len := 0xffffffffffffffe0 } 0x2241414141 = some 0x00040018 := by decide
theorem test_pushB_T_IN_3 : statusAfter (collecting (letters 3)) 0x2300000000 = some 0x00040010 := by decide
theorem test_pushB_T_LEN_3 :
    statusAfter { collecting [] with len := 0xfffffffffffffff8 } 0x2300000041 = some 0x00010018 := by decide
theorem test_pushBIllegal_T_IN_5 : statusAfter running 0x2300000100 = some 0x00000525 := by decide

theorem test_wrStatus_T_CTL_15 : statusAfter State.reset 0x2100000005 = some 0x00000604 := by decide
theorem test_wrDigest_T_CTL_16 : statusAfter (collecting []) 0x2500000000 = some 0x00000614 := by decide
theorem test_wrRsvd12_T_CTL_17 : statusAfter (collecting []) 0x2c00000001 = some 0x00000614 := by decide
theorem test_wrHex_T_CTL_18 : statusAfter (collecting []) 0x3300000000 = some 0x00000614 := by decide
theorem test_wrLen_T_CTL_19 : statusAfter erred 0x2800000000 = some 0x00000304 := by decide
/-- R246 for the two reserved ranges that section 2.11 does not show. -/
theorem test_wrRsvd10_wrRsvd24_R246 : statusAfter State.reset 0x2b00000000 = some 0x00000604 ∧
    statusAfter State.reset 0x3f00000000 = some 0x00000604 := by decide

/-- T-RD-1: CTRL, MSG_WORD, MSG_BYTE, W10 and W24 read 0; W12 by R247. -/
theorem test_reads_of_zero_T_RD_1 : readAfter running 0x0000000000 = some 0 ∧ readAfter running 0x0200000000 = some 0 ∧
    readAfter running 0x0300000000 = some 0 ∧ readAfter running 0x0a00000000 = some 0 ∧
    readAfter running 0x0c00000000 = some 0 ∧ readAfter running 0x1800000000 = some 0 := by decide
theorem test_rdStatus_T_RD_1 : readAfter (collecting (letters 3)) 0x0100000000 = some 0x00030010 ∧
    readAfter running 0x0100000000 = some 0x00000021 := by decide
theorem test_rdDigest_T_RD_1 : readAfter doneAbc 0x0400000000 = some 0x98500190 ∧
    readAfter doneAbc 0x0700000000 = some 0x727fe128 := by decide
theorem test_rdLen_T_LEN_2 : readAfter { collecting [] with len := 0xfffffffffffffff8 } 0x0800000000 = some 0xfffffff8 ∧
    readAfter { collecting [] with len := 0xfffffffffffffff8 } 0x0900000000 = some 0xffffffff := by decide
theorem test_rdHex_T_SER_3 : readAfter (collecting []) 0x1000000000 = some 0x33323130 := by decide
/-- T-SER-1, HEX7. -/
theorem test_rdHex_T_SER_1 : readAfter
    { State.reset with acc := ⟨0xd98c1dd4, 0x04b2008f, 0x980980e9, 0x7e42f8ec⟩ } 0x1700000000 = some 0x65373234 := by
  decide

/-- O2: an access that the port cannot carry has no effect on the core, even while a block runs. -/
theorem test_subword_access_O2 : nextOf (step { running with events := [.subword] }) = some running := by decide

/-- Program P2, steps 8 to 12: the STATUS and the digest words read in DONE after "abc". -/
theorem test_readOut_P2 : (answers 5 { doneAbc with events := readOutEvents .digest }) =
    [0x00000032, 0x98500190, 0xb04fd23c, 0x7d3f96d6, 0x727fe128] := by decide

theorem test_engRound_T_RND_1 :
    (nextOf (step (abcRound 0 ⟨0x67452301, 0xefcdab89, 0x98badcfe, 0x10325476⟩))).map (fun t => (t.work, t.rnd.val)) =
      some (⟨0x10325476, 0xd6d117b4, 0xefcdab89, 0x98badcfe⟩, 1) := by decide
theorem test_engRound_T_RND_7 :
    (nextOf (step (abcRound 63 ⟨0x7327d604, 0xe484b9d8, 0x624d8cb2, 0x310ade8f⟩))).map (·.work) =
      some ⟨0x310ade8f, 0xc08226b3, 0xe484b9d8, 0x624d8cb2⟩ := by decide
theorem test_engCombine_T_CMB_2 :
    (nextOf (step (abcRound 64 ⟨0x310ade8f, 0xc08226b3, 0xe484b9d8, 0x624d8cb2⟩))).map (fun t => (t.acc, statusWord t)) =
      some (⟨0x98500190, 0xb04fd23c, 0x7d3f96d6, 0x727fe128⟩, 0x00000032) := by decide
theorem test_engCombine_T_CMB_3 :
    addQuad ⟨0xffffffff, 0x00000000, 0x80000000, 0x00000001⟩ ⟨0x00000002, 0x00000000, 0x80000000, 0xffffffff⟩ =
      ⟨0x00000001, 0x00000000, 0x00000000, 0x00000000⟩ := by decide

/-! ### Memory -/

theorem test_reset_memory_wf : State.reset.buf.wf = true := by decide
/-- Writing the unlisted byte removes the cell. -/
theorem test_memory_write_zero : Memory.write [(3, 0x41), (5, 0x42)] 3 0 = [(5, 0x42)] := by decide

/-! ### Witnesses: for each statement with hypotheses, concrete values that meet them, at the boundaries of each clause -/

/-- A block of a state that no run has to reach: the second padding block needed, an error recorded. -/
def runningPad2 (n : Fin 65) : State := { running with rnd := n, next := .pad2, err := true, errcode := .busy }

theorem witness_DecodeAndEncodeAgree :
    ((Instr.pushB 0xff).wf = true ∧ encode (.pushB 0xff) = some 0x23000000ff) ∧
    ((Instr.cmdIllegal 5).wf = true ∧ encode (.cmdIllegal 5) = some 0x2000000005) ∧
    ((Instr.pushBIllegal 0x100).wf = true ∧ encode (.pushBIllegal 0x100) = some 0x2300000100) ∧
    ((Instr.wrRsvd24 7 0xffffffff).wf = true ∧ encode (.wrRsvd24 7 0xffffffff) = some 0x3fffffffff) ∧
    encode .engRound = none := by decide

theorem witness_StepRunsTheDecodedOperation :
    (Instr.cmdInit).wf = true ∧ encode .cmdInit = some 0x2000000001 ∧
    ({ State.reset with events := [.bus 0x2000000001, .engineTurn] } : State).events =
      .bus 0x2000000001 :: [.engineTurn] := by decide

theorem witness_EngineTurnTakesTheEnabledStep :
    (running.events = [] ∧ running.phase = .compress ∧ running.rnd.val < 64) ∧
    (({ runningPad2 64 with events := turns 2 } : State).events = .engineTurn :: turns 1 ∧
      (runningPad2 64).phase = .compress ∧ (runningPad2 64).rnd.val = 64) ∧
    ((runningPad2 63).phase = .compress ∧ (runningPad2 63).rnd.val < 64) ∧
    State.reset.phase ≠ .compress := by decide

theorem witness_EveryStepCompletes :
    ({ running with events := [.subword] } : State).events = .subword :: [] := by decide

theorem witness_OperationsStopOnlyOnDisabledEngineSteps :
    (Instr.cmdFinal).isEngineStep = false ∧ (Instr.engRound).isEngineStep = true ∧
    (∀ t, exec .engRound State.reset ≠ .next t) ∧ (∀ t, exec .engRound (runningPad2 64) ≠ .next t) ∧
    (∀ t, exec .engCombine (runningPad2 63) ≠ .next t) :=
  ⟨rfl, rfl, not_next_of_nextOf rfl, not_next_of_nextOf rfl, not_next_of_nextOf rfl⟩

theorem witness_OnlyReadsAnswerTheHost :
    (∃ t, exec .cmdInit running = .next t) ∧ (Instr.cmdInit).isRead = false ∧
    (∃ t, exec (.rdStatus 0) running = .next t) ∧ (Instr.rdStatus 0).isRead = true :=
  ⟨⟨_, rfl⟩, rfl, ⟨_, rfl⟩, rfl⟩

theorem witness_InitLoadsIvAndStartsAMessage :
    running.phase = .compress ∧ State.reset.phase ≠ .compress ∧ (collecting (letters 63)).phase ≠ .compress ∧
    doneAbc.phase ≠ .compress := by decide

theorem witness_FinalPadsAndStartsTheEngine :
    running.phase = .compress ∧ State.reset.phase = .idle ∧ doneAbc.phase = .done ∧
    ((collecting []).phase = .absorb ∧ (collecting []).bcount.toNat ≤ 55) ∧
    ((collecting (letters 55)).phase = .absorb ∧ (collecting (letters 55)).bcount.toNat ≤ 55) ∧
    ((collecting (letters 56)).phase = .absorb ∧ 56 ≤ (collecting (letters 56)).bcount.toNat) ∧
    ((collecting (letters 63)).phase = .absorb ∧ 56 ≤ (collecting (letters 63)).bcount.toNat) := by decide

theorem witness_ResetInputDoesWhatSresetDoes :
    ({ running with events := .resetInput :: turns 3 } : State).events = .resetInput :: turns 3 := by decide

theorem witness_IllegalCommandRecordsBadCmd :
    lane 0 0 = 0 ∧ 5 ≤ (lane 5 0).toNat ∧ (0x101 : Word).extractLsb' 8 24 ≠ 0 ∧
    (0x80000004 : Word).extractLsb' 8 24 ≠ 0 ∧
    decode (busWord true 0 0) = .cmdIllegal 0 ∧ decode (busWord true 0 4) = .cmdSreset := by decide

theorem witness_WordPushAppendsFourBytes :
    running.phase = .compress ∧ State.reset.phase = .idle ∧ doneAbc.phase = .done ∧
    ((collecting (letters 1)).phase = .absorb ∧ (collecting (letters 1)).bcount.toNat % 4 ≠ 0) ∧
    ((collecting (letters 63)).phase = .absorb ∧ (collecting (letters 63)).bcount.toNat % 4 ≠ 0) ∧
    ((collecting []).phase = .absorb ∧ (collecting []).bcount.toNat % 4 = 0 ∧ (collecting []).bcount.toNat ≠ 60) ∧
    ((collecting (letters 56)).bcount.toNat % 4 = 0 ∧ (collecting (letters 56)).bcount.toNat ≠ 60) ∧
    ((collecting (letters 60)).phase = .absorb ∧ (collecting (letters 60)).bcount.toNat % 4 = 0 ∧
      (collecting (letters 60)).bcount.toNat = 60) := by decide

theorem witness_BytePushAppendsOneByte :
    running.phase = .compress ∧ State.reset.phase = .idle ∧ doneAbc.phase = .done ∧
    ((collecting []).phase = .absorb ∧ (collecting []).bcount.toNat ≠ 63) ∧
    ((collecting (letters 62)).phase = .absorb ∧ (collecting (letters 62)).bcount.toNat ≠ 63) ∧
    ((collecting (letters 63)).phase = .absorb ∧ (collecting (letters 63)).bcount.toNat = 63) := by decide

theorem witness_RefusedWritesRecordRoWrite :
    (1 : BitVec 5) = 1 ∧ 4 ≤ (4 : BitVec 5).toNat ∧ 4 ≤ (31 : BitVec 5).toNat ∧
    decode (busWord true 4 7) = .wrDigest 0 7 ∧ decode (busWord true 31 7) = .wrRsvd24 7 7 ∧
    (∃ t : State, t = { erred with err := true, errcode := if erred.err = true then erred.errcode else .rowrite }) :=
  ⟨rfl, by decide, by decide, by decide, by decide, _, rfl⟩

/-- The last and the first character: the low nibble of D's top byte, the high nibble of A's low byte (T-SER-1). -/
theorem witness_HexReadShowsTheDigestCharacters :
    (3 < 4 ∧ 31 = 4 * (7 : BitVec 3).toNat + 3 ∧ 15 = 31 / 2 ∧
      14 = ([0, 0, 0, (0x7e42f8ec : Word)].getD (15 / 4) 0).toNat / 2 ^ (8 * (15 % 4)) / 2 ^ (4 * (1 - 31 % 2)) % 16) ∧
    (0 < 4 ∧ 0 = 4 * (0 : BitVec 3).toNat + 0 ∧ 0 = 0 / 2 ∧
      13 = ([(0xd98c1dd4 : Word), 0, 0, 0].getD (0 / 4) 0).toNat / 2 ^ (8 * (0 % 4)) / 2 ^ (4 * (1 - 0 % 2)) % 16) := by
  decide

theorem witness_ReadsHaveNoSideEffects :
    (Instr.rdCtrl 0).isRead = true ∧ (Instr.rdHex 7 0xffffffff).isRead = true := by decide

/-- Two states that differ in every hidden part. -/
theorem witness_ReadsRevealNoHiddenState :
    ∃ s s' t t' : State, (Instr.rdStatus 0).isRead = true ∧ s.work ≠ s'.work ∧ s.rnd ≠ s'.rnd ∧ s.next ≠ s'.next ∧
      s.buf ≠ s'.buf ∧ s.acc = s'.acc ∧ s.bcount = s'.bcount ∧ s.len = s'.len ∧ s.lenwrap = s'.lenwrap ∧
      s.phase = s'.phase ∧ s.err = s'.err ∧ s.errcode = s'.errcode ∧
      exec (.rdStatus 0) s = .next t ∧ exec (.rdStatus 0) s' = .next t' :=
  ⟨running, { running with work := ⟨1, 2, 3, 4⟩, rnd := 5, next := .pad2, buf := [] }, _, _, by decide, by decide,
    by decide, by decide, by decide, rfl, rfl, rfl, rfl, rfl, rfl, rfl, rfl, rfl⟩

/-- The first and the last round of each quarter. -/
theorem witness_EngineRoundIsOneRound :
    ∀ n ∈ ([0, 15, 16, 31, 32, 47, 48, 63] : List (Fin 65)),
      (runningPad2 n).phase = .compress ∧ (runningPad2 n).rnd.val < 64 := by decide

/-- The combine step next, with sums that wrap (T-CMB-3). -/
def combining (nx : Next) : State :=
  { runningPad2 64 with
    acc := ⟨0xffffffff, 0, 0x80000000, 1⟩
    work := ⟨2, 0, 0x80000000, 0xffffffff⟩
    next := nx }

/-- Each continuation. -/
theorem witness_EngineCombineAddsAndContinues :
    ∀ nx ∈ [Next.absorb, Next.done, Next.pad2],
      (combining nx).phase = .compress ∧ (combining nx).rnd.val = 64 ∧ (combining nx).next = nx ∧
      (1 : Word).toNat = ((combining nx).acc.a.toNat + (combining nx).work.a.toNat) % 2 ^ 32 ∧
      (0 : Word).toNat = ((combining nx).acc.b.toNat + (combining nx).work.b.toNat) % 2 ^ 32 ∧
      (0 : Word).toNat = ((combining nx).acc.c.toNat + (combining nx).work.c.toNat) % 2 ^ 32 ∧
      (0 : Word).toNat = ((combining nx).acc.d.toNat + (combining nx).work.d.toNat) % 2 ^ 32 := by decide

theorem witness_EngineStepsOfABlockComputeCompress :
    (running.events = [] ∧ running.phase = .compress ∧ running.rnd.val = 0 ∧ running.work = running.acc ∧
      running.next = .absorb) ∧
    ((runningPad2 0).events = [] ∧ (runningPad2 0).phase = .compress ∧ (runningPad2 0).rnd.val = 0 ∧
      (runningPad2 0).work = (runningPad2 0).acc ∧ (runningPad2 0).next = .pad2) ∧
    ((abcRound 0 iv).events = [] ∧ (abcRound 0 iv).phase = .compress ∧ (abcRound 0 iv).rnd.val = 0 ∧
      (abcRound 0 iv).work = (abcRound 0 iv).acc ∧ (abcRound 0 iv).next = .done) := by decide

theorem witness_EngineStepsLeftCountsTheStepsUntilIdle :
    ((runningPad2 0).events = [] ∧ (runningPad2 0).phase = .compress ∧ 129 < engineStepsLeft (runningPad2 0)) ∧
    ((abcRound 64 iv).events = [] ∧ (abcRound 64 iv).phase = .compress ∧ 0 < engineStepsLeft (abcRound 64 iv)) := by
  decide

theorem witness_AccumulatorWrittenOnlyByInitCombineSreset :
    (∃ t, exec .cmdInit State.reset = .next t ∧ t.acc ≠ State.reset.acc) ∧
    (∃ t, exec .cmdSreset running = .next t ∧ t.acc ≠ running.acc) ∧
    (∃ t, exec .engCombine (abcRound 64 iv) = .next t ∧ t.acc ≠ (abcRound 64 iv).acc) :=
  ⟨⟨_, rfl, by decide⟩, ⟨_, rfl, by decide⟩, ⟨_, rfl, by decide⟩⟩

theorem witness_ErrorRecordIsStickyAndBlocksNothing :
    (∃ t, exec (.wrLen 0 0) erred = .next t) ∧ erred.err = true ∧ Instr.wrLen 0 0 ≠ .cmdClrErr ∧
    Instr.wrLen 0 0 ≠ .cmdSreset ∧ (∃ t, exec .cmdInit erred = .next t) ∧
    (∀ data, Instr.cmdInit ≠ .rdStatus data) ∧
    ({ erred with events := [.resetInput] } : State).events = .resetInput :: [] :=
  ⟨⟨_, rfl⟩, rfl, by decide, by decide, ⟨_, rfl⟩, fun _ h => (nomatch h), rfl⟩

/-- Each way to wrap at the smallest length that does, and one step below. -/
theorem witness_LengthWrapIsStickyAndStopsNothing :
    (∃ t, exec (.pushB 0x41) { collecting [] with len := 0xfffffffffffffff8 } = .next t ∧ t.lenwrap = true) ∧
    (∃ t, exec (.pushB 0x41) { collecting [] with len := 0xfffffffffffffff7 } = .next t ∧ t.lenwrap = false) ∧
    (∃ t, exec (.pushW 1 2 3 4) { collecting [] with len := 0xffffffffffffffe0 } = .next t ∧ t.lenwrap = true) ∧
    (collecting []).lenwrap = false ∧
    (∀ data, Instr.pushB 0x41 ≠ .rdStatus data) ∧
    (∃ t, exec .cmdInit { collecting [] with lenwrap := true } = .next t ∧ t.lenwrap = false) ∧
    (∃ t, exec .cmdSreset { running with lenwrap := true } = .next t ∧ t.lenwrap = false) ∧
    (collecting []).phase ≠ .compress ∧
    ({ running with lenwrap := true, events := [.resetInput] } : State).events = .resetInput :: [] :=
  ⟨⟨_, rfl, by decide⟩, ⟨_, rfl, by decide⟩, ⟨_, rfl, by decide⟩, rfl,
    fun _ h => (nomatch h), ⟨_, rfl, rfl⟩, ⟨_, rfl, rfl⟩, by decide, rfl⟩

theorem witness_PhaseChangesOnlyAsTheSequencerSays :
    (∃ t, exec .cmdInit doneAbc = .next t ∧ t.phase ≠ doneAbc.phase) ∧
    (∃ t, exec .cmdSreset running = .next t ∧ t.phase ≠ running.phase) ∧
    (∃ t, exec (.pushB 1) (collecting (letters 63)) = .next t ∧ t.phase ≠ .absorb) ∧
    (∃ t, exec (.pushW 1 2 3 4) (collecting (letters 60)) = .next t ∧ t.phase ≠ .absorb) ∧
    (∃ t, exec .cmdFinal (collecting []) = .next t ∧ t.phase ≠ .absorb) ∧
    (∃ t, exec .engCombine (abcRound 64 iv) = .next t ∧ t.phase ≠ .compress) :=
  ⟨⟨_, rfl, by decide⟩, ⟨_, rfl, by decide⟩, ⟨_, rfl, by decide⟩, ⟨_, rfl, by decide⟩, ⟨_, rfl, by decide⟩,
    ⟨_, rfl, by decide⟩⟩

theorem witness_OnlySresetDisturbsARunningBlock :
    running.phase = .compress ∧ (Instr.cmdInit).isEngineStep = false ∧ Instr.cmdInit ≠ .cmdSreset ∧
    (∃ t, exec .cmdInit running = .next t) := ⟨rfl, rfl, by decide, _, rfl⟩

/-- T-RACE-1's start. -/
theorem witness_PushRacesWithTheCombineStep :
    ({ running with rnd := 64 } : State).phase = .compress ∧ ({ running with rnd := 64 } : State).rnd.val = 64 ∧
    ({ running with rnd := 64 } : State).next = .absorb ∧ ({ running with rnd := 64 } : State).bcount = 0 ∧
    ({ running with rnd := 64 } : State).err = false := by decide

/-- A running block one round in, and a state that collects bytes, each with a next state. -/
theorem witness_InvariantKeptByEveryStep :
    (Inv (abcRound 1 (rounds 1 iv (abcRound 0 iv).buf.block)) ∧
      ∃ t, step (abcRound 1 (rounds 1 iv (abcRound 0 iv).buf.block)) = .next t) ∧
    (Inv { collecting (letters 63) with events := [.bus 0x2300000041] } ∧
      ∃ t, step { collecting (letters 63) with events := [.bus 0x2300000041] } = .next t) := by
  refine ⟨⟨⟨by decide, by decide, by decide, by decide, by decide, by decide, by decide, by decide, by decide,
    by decide⟩, _, rfl⟩, ⟨⟨by decide, by decide, by decide, by decide, by decide, by decide, by decide, ?_, by decide,
    by decide⟩, _, rfl⟩⟩
  intro h
  cases h

theorem witness_RoundFunctionsActBitByBit : 0 < 32 ∧ 31 < 32 := by decide

theorem witness_ShiftsAndWordIndexesAreWellSpread :
    0 < 64 ∧ 63 < 64 ∧ 3 < 4 ∧ 15 < 16 ∧ 59 / 16 = 3 ∧ wordIndexOf 59 = 13 := by decide

/-- The one zero byte of a 54-byte message, and the first and the last of a 56-byte one. -/
theorem witness_PaddingPostcondition :
    ((letters 54).length < 55 ∧ 55 < (pad (letters 54)).length - 8) ∧
    ((letters 56).length < 57 ∧ 57 < (pad (letters 56)).length - 8) ∧
    ((letters 56).length < 119 ∧ 119 < (pad (letters 56)).length - 8) := by
  simp [letters, pad, padZeros, le64Bytes]

theorem witness_DigestStringIs32LowercaseHexCharacters :
    (0x33 : Byte) ∈ digestString iv ∧ (0x66 : Byte) ∈ digestString iv ∧ digestString iv = digestString iv :=
  ⟨by decide, by decide, rfl⟩

/-- Nothing taken in yet: right after INIT. -/
theorem absorbed_nothing (evs : List Event) : Absorbed { collecting [] with events := evs } [] :=
  ⟨rfl, rfl, rfl, rfl, fun k h => absurd h (Nat.not_lt_zero k)⟩

/-- 63 bytes taken in: the buffer is full but for one. -/
theorem absorbed_63_letters (evs : List Event) : Absorbed { collecting (letters 63) with events := evs } (letters 63) :=
  ⟨rfl, rfl, (by decide : (collecting (letters 63)).bcount.toNat = (letters 63).length % 64),
    (by decide : (collecting (letters 63)).len = BitVec.ofNat 64 (8 * (letters 63).length)),
    (by decide : ∀ k, k < (letters 63).length % 64 →
      (collecting (letters 63)).buf.read k = (letters 63).getD (64 * ((letters 63).length / 64) + k) 0)⟩

/-- A wait with a STATUS poll and a CLRERR in it. -/
def clearingWait (n : Nat) : List Event := .bus 0x0100000000 :: .bus 0x2000000003 :: turns n

theorem witness_AcceptedPushExtendsTheMessage :
    (Absorbed { collecting [] with events := [.bus (pushWord (.word 1 2 3 4))] } [] ∧
      pushAligned 0 (.word 1 2 3 4) = true ∧ (0 + (pushBytes (.word 1 2 3 4)).length) % 64 ≠ 0 ∧
      clearsError [] = false) ∧
    (Absorbed { collecting (letters 63) with events := .bus (pushWord (.byte 0x41)) :: clearingWait 65 } (letters 63) ∧
      pushAligned (letters 63).length (.byte 0x41) = true ∧
      (clearingWait 65).all isQuiet = true ∧
      ((letters 63).length + (pushBytes (.byte 0x41)).length) % 64 = 0 ∧
      65 ≤ engineTurnsIn (clearingWait 65) ∧ clearsError (clearingWait 65) = true) :=
  ⟨⟨absorbed_nothing _, rfl, by decide, rfl⟩, ⟨absorbed_63_letters _, rfl, by decide, by decide, by decide, by decide⟩⟩

theorem witness_FinalGivesTheDigest :
    (Absorbed { collecting [] with events := .bus (busWord true 0 2) :: turns 65 } [] ∧
      (turns 65).all isQuiet = true ∧
      65 * (if ([] : List Byte).length % 64 ≤ 55 then 1 else 2) ≤ engineTurnsIn (turns 65) ∧
      clearsError (turns 65) = false) ∧
    (Absorbed { collecting (letters 63) with events := .bus (busWord true 0 2) :: clearingWait 130 } (letters 63) ∧
      (clearingWait 130).all isQuiet = true ∧
      65 * (if (letters 63).length % 64 ≤ 55 then 1 else 2) ≤ engineTurnsIn (clearingWait 130) ∧
      clearsError (clearingWait 130) = true) :=
  ⟨⟨absorbed_nothing _, by decide, by decide, by decide⟩, ⟨absorbed_63_letters _, by decide, by decide, by decide⟩⟩

/-- 15 words, then bytes up to a full block with its wait, in which the Host also clears the record, then one byte more. -/
def witnessPushes : List PushStep :=
  List.replicate 15 ⟨.word 1 2 3 4, []⟩ ++ List.replicate 3 ⟨.byte 5, [.bus 0x0100000000]⟩ ++
    [⟨.byte 6, clearingWait 65⟩, ⟨.byte 7, []⟩]

/-- With and without the CLRERR of step 1, with either read-out, and for the empty message. -/
theorem witness_ProtocolComputesTheDigest :
    (erred.phase ≠ .compress ∧ ([.bus 0x2000000003] : List Event).all isQuiet = true ∧
      followsProtocol 0 witnessPushes = true ∧ (turns 65).all isQuiet = true ∧
      65 * (if (messageOf witnessPushes).length % 64 ≤ 55 then 1 else 2) ≤ engineTurnsIn (turns 65) ∧
      clearsError (hashEvents [.bus 0x2000000003] witnessPushes (turns 65)) = true ∧
      ({ erred with events := protocolEvents [.bus 0x2000000003] witnessPushes (turns 65) .hex } : State).events =
        protocolEvents [.bus 0x2000000003] witnessPushes (turns 65) .hex) ∧
    (doneAbc.phase ≠ .compress ∧ followsProtocol 0 [] = true ∧
      65 * (if (messageOf []).length % 64 ≤ 55 then 1 else 2) ≤ engineTurnsIn (turns 65) ∧
      clearsError (hashEvents [] [] (turns 65)) = false) :=
  ⟨⟨by decide, by decide, by decide, by decide, by decide, by decide, rfl⟩, by decide, by decide, by decide, by decide⟩

theorem witness_WindowAccessesReachTheirRegisters :
    0 % 128 = 0 ∧ 0x40000080 % 128 = 0 ∧
    (0x80 ≤ 0x83 ∧ 0x83 < 0x80 + 128 ∧ (AccessSize.byte ≠ .word ∨ 0x83 % 4 ≠ 0)) ∧
    (0x80 ≤ 0xff ∧ 0xff < 0x80 + 128 ∧ (AccessSize.word ≠ .word ∨ 0xff % 4 ≠ 0)) ∧
    0x7c + accessBytes .word ≤ 0x80 ∧ 0x80 + 128 ≤ 0x100 := by decide

end Sys2Proof.Tests
end

section
/-! PROOFS. The laws of an accepted push, for any number of bytes (40_input.md R141 to R144), and the statements about the
pushes, assembled from them. -/

namespace Sys2Proof.Machine

/-! ### Refusals -/

theorem whenAbsorbing_refused {act : State → Result} {s : State} (h : s.phase = .idle ∨ s.phase = .done) :
    whenAbsorbing act s = raiseError .state s :=
  h.elim whenAbsorbing_idle whenAbsorbing_done

theorem exec_pushW_busy {s : State} (b0 b1 b2 b3 : Byte) (h : s.phase = .compress) :
    exec (.pushW b0 b1 b2 b3) s = raiseError .busy s := by
  rw [exec, execPushW, whenAbsorbing_compress h]

theorem exec_pushW_refused {s : State} (b0 b1 b2 b3 : Byte) (h : s.phase = .idle ∨ s.phase = .done) :
    exec (.pushW b0 b1 b2 b3) s = raiseError .state s := by
  rw [exec, execPushW, whenAbsorbing_refused h]

theorem exec_pushB_busy {s : State} (b : Byte) (h : s.phase = .compress) :
    exec (.pushB b) s = raiseError .busy s := by
  rw [exec, execPushB, whenAbsorbing_compress h]

theorem exec_pushB_refused {s : State} (b : Byte) (h : s.phase = .idle ∨ s.phase = .done) :
    exec (.pushB b) s = raiseError .state s := by
  rw [exec, execPushB, whenAbsorbing_refused h]

/-! ### What an accepted push does -/

theorem acceptBytes_len_toNat (bytes : List Byte) (s : State) :
    (acceptBytes bytes s).len.toNat = (s.len.toNat + 8 * bytes.length) % 2 ^ 64 := by
  rw [acceptBytes_len, BitVec.toNat_ofNat]

theorem acceptBytes_lenwrap_iff (bytes : List Byte) (s : State) :
    (acceptBytes bytes s).lenwrap = true ↔ s.lenwrap = true ∨ 2 ^ 64 ≤ s.len.toNat + 8 * bytes.length := by
  rw [acceptBytes_lenwrap, Bool.or_eq_true, decide_eq_true_iff]

/-- Short of a full block, BCOUNT counts the bytes, and only the buffer and the length change besides it. -/
theorem acceptBytes_partial_frame {bytes : List Byte} {s : State} (h : s.bcount.toNat + bytes.length < 64) :
    (acceptBytes bytes s).bcount.toNat = s.bcount.toNat + bytes.length ∧
      { acceptBytes bytes s with buf := s.buf, len := s.len, lenwrap := s.lenwrap, bcount := s.bcount } = s := by
  rw [acceptBytes_partial (Nat.ne_of_lt h)]
  exact ⟨by rw [BitVec.toNat_ofNat]; exact Nat.mod_eq_of_lt h, rfl⟩

/-- A full block starts the compression, and only the buffer and the length change besides it. -/
theorem acceptBytes_full_frame {bytes : List Byte} {s : State} (h : s.bcount.toNat + bytes.length = 64) :
    { acceptBytes bytes s with buf := s.buf, len := s.len, lenwrap := s.lenwrap } =
      { s with work := s.acc, rnd := 0, next := .absorb, bcount := 0, phase := .compress } := by
  rw [acceptBytes_full h]
  rfl

/-- Every byte of the buffer after four bytes are stored. -/
theorem Memory.read_writeBytes_four (m : Memory) (a k : Nat) (b0 b1 b2 b3 : Byte) :
    (m.writeBytes a [b0, b1, b2, b3]).read k =
      if k = a then b0 else if k = a + 1 then b1 else if k = a + 2 then b2 else if k = a + 3 then b3
      else m.read k := by
  rw [Memory.read_writeBytes]
  by_cases h : a ≤ k ∧ k < a + [b0, b1, b2, b3].length
  · obtain ⟨d, rfl⟩ := Nat.exists_eq_add_of_le h.1
    have hd : d < 4 := Nat.lt_of_add_lt_add_left h.2
    rw [if_pos h, Nat.add_sub_cancel_left]
    interval_cases d <;> simp
  · have hk : ¬ (a ≤ k ∧ k < a + 4) := h
    rw [if_neg h, if_neg (by omega), if_neg (by omega), if_neg (by omega), if_neg (by omega)]

end Sys2Proof.Machine

namespace Sys2Proof

open Machine

/-- Settles O15: the phases give the refusals; in ABSORB the push is `acceptBytes` of four bytes, and BCOUNT, a multiple of
4, leaves room for them, so that the block is full exactly at 60. -/
theorem wordPushAppendsFourBytes : Obligations.WordPushAppendsFourBytes := by
  intro b0 b1 b2 b3 s
  refine ⟨exec_pushW_busy b0 b1 b2 b3, exec_pushW_refused b0 b1 b2 b3, exec_pushW_unaligned b0 b1 b2 b3, fun h h4 => ?_⟩
  refine ⟨acceptBytes [b0, b1, b2, b3] s, exec_pushW b0 b1 b2 b3 h h4, fun k => ?_,
    acceptBytes_len_toNat _ s, acceptBytes_lenwrap_iff _ s, fun h60 => ?_, fun h60 => ?_⟩
  · rw [acceptBytes_buf]
    exact Memory.read_writeBytes_four _ _ k b0 b1 b2 b3
  · have room : s.bcount.toNat + 4 < 64 := by have := s.bcount.isLt; omega
    exact acceptBytes_partial_frame room
  · have full : s.bcount.toNat + 4 = 64 := by omega
    exact acceptBytes_full_frame full

/-- Settles O16: the phases give the refusals; in ABSORB the push is `acceptBytes` of one byte, for which BCOUNT < 64
leaves room, so that the block is full exactly at 63. -/
theorem bytePushAppendsOneByte : Obligations.BytePushAppendsOneByte := by
  refine ⟨fun _ => raiseError_eq .rsvd, fun b s => ⟨exec_pushB_busy b, exec_pushB_refused b, fun h => ?_⟩⟩
  refine ⟨acceptBytes [b] s, exec_pushB b h, fun k => ?_,
    acceptBytes_len_toNat _ s, acceptBytes_lenwrap_iff _ s, fun h63 => ?_, fun h63 => ?_⟩
  · rw [acceptBytes_buf]
    exact Memory.read_write _ _ k b
  · have room : s.bcount.toNat + 1 < 64 := by have := s.bcount.isLt; omega
    exact acceptBytes_partial_frame room
  · have full : s.bcount.toNat + 1 = 64 := by omega
    exact acceptBytes_full_frame full

end Sys2Proof
end

section
/-! PROOFS. The laws of FINAL (41_padding.md R164) and the statement about it, assembled from them: the bytes of the block
it leaves, and the compression it starts. -/

namespace Sys2Proof.Machine

/-! ### Refusals -/

theorem exec_cmdFinal_busy {s : State} (h : s.phase = .compress) : exec .cmdFinal s = raiseError .busy s := by
  rw [exec, execCmdFinal, whenAbsorbing_compress h]

theorem exec_cmdFinal_refused {s : State} (h : s.phase = .idle ∨ s.phase = .done) :
    exec .cmdFinal s = raiseError .state s := by
  rw [exec, execCmdFinal, whenAbsorbing_refused h]

/-! ### The padded block -/

/-- Every byte of the one-block padding: the length field replaces the last eight of the zeros behind 0x80. -/
theorem read_writeLength_markEnd {n : Nat} (hn : n ≤ 55) (len : DWord) (m : Memory) (k : Nat) :
    (writeLength len (markEnd n m)).read k =
      if k < n then m.read k
      else if k = n then 0x80
      else if k < 56 then 0
      else if k < 64 then len.extractLsb' (8 * (k - 56)) 8
      else m.read k := by
  have hmark : n ≤ 63 := by omega
  rw [read_writeLength, read_markEnd hmark]
  by_cases hfield : 56 ≤ k ∧ k < 64
  · rw [if_pos hfield, if_neg (by omega), if_neg (by omega), if_neg (by omega), if_pos hfield.2]
  · rw [if_neg hfield]
    by_cases hlow : k < 56
    · have hblock : k < 64 := by omega
      rw [if_pos hlow, if_pos hblock]
    · have hbeyond : ¬ k < 64 := by omega
      simp only [if_neg hlow, if_neg hbeyond]

/-! ### The compression FINAL starts -/

/-- A block just started has all its 65 steps before it, and with NEXT = PAD2 those of a second block (R204, R300). -/
theorem engineStepsLeft_startCompress (nx : Next) (s : State) :
    engineStepsLeft (startCompress nx s) = if nx = .pad2 then 130 else 65 := by
  cases nx <;> rfl

end Sys2Proof.Machine

namespace Sys2Proof

open Machine

/-- Settles O10: the phases give the refusals; in ABSORB the effect is `finalPadding`, which for BCOUNT up to 55 marks the
end and writes the length, and from 56 on only marks the end, before it starts the compression. -/
theorem finalPadsAndStartsTheEngine : Obligations.FinalPadsAndStartsTheEngine := by
  refine fun s => ⟨exec_cmdFinal_busy, exec_cmdFinal_refused, fun h hshort => ?_, fun h hlong => ?_⟩
  · refine ⟨_, (exec_cmdFinal h).trans (congrArg _ (finalPadding_short hshort)), fun k => ?_, rfl,
      engineStepsLeft_startCompress .done _⟩
    exact read_writeLength_markEnd hshort s.len s.buf k
  · have hmark : s.bcount.toNat ≤ 63 := by have := s.bcount.isLt; omega
    refine ⟨_, (exec_cmdFinal h).trans (congrArg _ (finalPadding_long hlong)), fun k => ?_, rfl,
      engineStepsLeft_startCompress .pad2 _⟩
    exact read_markEnd hmark

end Sys2Proof
end

section
/-! PROOFS. The laws of the compressor (42_compressor.md): the round functions bit by bit (R180), one round in terms of
the buffer's bytes (R184, R186), the combine register by register (R203), and the statements about them. -/

namespace Sys2Proof.Machine

/-! ### The round functions -/

section
variable (b c d : Word)

theorem fOf_eq (q : Nat) :
    fOf q b c d = if q = 0 then f0 b c d else if q = 1 then f1 b c d else if q = 2 then f2 b c d else f3 b c d := by
  match q with
  | 0 => rfl
  | 1 => rfl
  | 2 => rfl
  | _ + 3 => rfl

/-- F1 is the selector F0 with `d` choosing between `b` and `c`. -/
theorem f1_eq_f0 : f1 b c d = f0 d b c := by
  rw [f1, f0, BitVec.and_comm b, BitVec.and_comm c]

theorem getLsbD_f0 {k : Nat} (hk : k < 32) :
    (f0 b c d).getLsbD k = if b.getLsbD k = true then c.getLsbD k else d.getLsbD k := by
  rw [f0, BitVec.getLsbD_or, BitVec.getLsbD_and, BitVec.getLsbD_and, BitVec.getLsbD_not, decide_eq_true hk]
  cases b.getLsbD k <;> simp

theorem getLsbD_f1 {k : Nat} (hk : k < 32) :
    (f1 b c d).getLsbD k = if d.getLsbD k = true then b.getLsbD k else c.getLsbD k := by
  rw [f1_eq_f0, getLsbD_f0 d b c hk]

theorem getLsbD_f2 (k : Nat) : (f2 b c d).getLsbD k = ((b.getLsbD k ^^ c.getLsbD k) ^^ d.getLsbD k) := by
  rw [f2, BitVec.getLsbD_xor, BitVec.getLsbD_xor]

theorem getLsbD_f3 {k : Nat} (hk : k < 32) :
    (f3 b c d).getLsbD k = (c.getLsbD k ^^ (b.getLsbD k || !d.getLsbD k)) := by
  simp [f3, hk]

end

/-! ### One round on the buffer's bytes -/

theorem rotl32_eq_rotateLeft (x : Word) {n : Nat} (hn : n < 32) : rotl32 x n = x.rotateLeft n := by
  rw [rotl32, BitVec.rotateLeft_def, Nat.mod_eq_of_lt hn]

theorem shiftOf_lt : ∀ {i : Nat}, i < 64 → shiftOf i < 32 := by decide

theorem wordIndexOf_eq (i : Nat) :
    wordIndexOf i = if i / 16 = 0 then i else if i / 16 = 1 then (5 * i + 1) % 16
      else if i / 16 = 2 then (3 * i + 5) % 16 else 7 * i % 16 := by
  unfold wordIndexOf
  split
  case h_1 hq => rw [if_pos hq]
  case h_2 hq => simp [hq]
  case h_3 hq => simp [hq]
  case h_4 h0 h1 h2 => rw [if_neg h0, if_neg h1, if_neg h2]

theorem wordIndexOf_lt (i : Nat) : wordIndexOf i < 16 := by
  rw [wordIndexOf_eq]
  split_ifs <;> omega

/-- M[j] of the buffer is the little-endian word of its bytes from 4j on. -/
theorem messageWord_block (m : Memory) {j : Nat} (hj : j < 16) :
    messageWord m.block j = le32 (m.read (4 * j)) (m.read (4 * j + 1)) (m.read (4 * j + 2)) (m.read (4 * j + 3)) := by
  rw [messageWord, m.getD_block (by omega), m.getD_block (by omega), m.getD_block (by omega), m.getD_block (by omega)]

/-- The one register a round computes, with the rotation and the message word written out. -/
theorem round_b {i : Nat} (hi : i < 64) (r : Quad) (m : Memory) :
    (round i r m.block).b =
      r.b + (fOf (i / 16) r.b r.c r.d + r.a + kOf i +
        le32 (m.read (4 * wordIndexOf i)) (m.read (4 * wordIndexOf i + 1)) (m.read (4 * wordIndexOf i + 2))
          (m.read (4 * wordIndexOf i + 3))).rotateLeft (shiftOf i) := by
  rw [round, rotl32_eq_rotateLeft _ (shiftOf_lt hi), messageWord_block m (wordIndexOf_lt i)]

/-! ### The combine -/

/-- The sums mod 2^32, register by register, determine the combined accumulator. -/
theorem eq_addQuad_of_toNat {x y sum : Quad}
    (ha : sum.a.toNat = (x.a.toNat + y.a.toNat) % 2 ^ 32) (hb : sum.b.toNat = (x.b.toNat + y.b.toNat) % 2 ^ 32)
    (hc : sum.c.toNat = (x.c.toNat + y.c.toNat) % 2 ^ 32) (hd : sum.d.toNat = (x.d.toNat + y.d.toNat) % 2 ^ 32) :
    sum = addQuad x y := by
  rw [← BitVec.toNat_add] at ha hb hc hd
  rw [addQuad, ← BitVec.eq_of_toNat_eq ha, ← BitVec.eq_of_toNat_eq hb, ← BitVec.eq_of_toNat_eq hc,
    ← BitVec.eq_of_toNat_eq hd]

/-- A block that starts while PHASE is COMPRESS already leaves PHASE as it is. -/
theorem startCompress_of_compress {nx : Next} {s : State} (h : s.phase = .compress) :
    startCompress nx s = { s with work := s.acc, rnd := 0, next := nx, bcount := 0 } := by
  rw [startCompress, ← h]

/-- The second padding block starts in the PHASE the core is in (R165, R203). -/
theorem afterCombine_pad2_of_compress {s : State} (hn : s.next = .pad2) (h : s.phase = .compress) :
    afterCombine s =
      { s with buf := secondPadding s.len s.buf, work := s.acc, rnd := 0, next := .done, bcount := 0 } :=
  (afterCombine_pad2 hn).trans (startCompress_of_compress h)

end Sys2Proof.Machine

namespace Sys2Proof

open Machine

/-- Settles O38: F1 is F0 with its arguments in another order, and F0 selects; F2 and F3 bit by bit. -/
theorem roundFunctionsActBitByBit : Obligations.RoundFunctionsActBitByBit :=
  fun b c d k hk => ⟨getLsbD_f0 b c d hk, getLsbD_f1 b c d hk, getLsbD_f2 b c d k, getLsbD_f3 b c d hk⟩

/-- Settles O25: the enabled step writes `round` of the old registers, three of which only move; the fourth is `round_b`
with the quarter's function and word index written out. -/
theorem engineRoundIsOneRound : Obligations.EngineRoundIsOneRound := by
  intro s h hr
  refine ⟨_, execEngRound_enabled h hr, fun q g hq hg => ?_, rfl, rfl⟩
  subst hq
  obtain rfl : g = wordIndexOf s.rnd.val := hg.trans (wordIndexOf_eq s.rnd.val).symm
  have hb := round_b hr s.work s.buf
  rw [fOf_eq] at hb
  exact ⟨rfl, hb, rfl, rfl⟩

/-- Settles O26: the four sums are `addQuad`, and `afterCombine` goes on as NEXT says, after PAD2 with a block from the
new accumulator. -/
theorem engineCombineAddsAndContinues : Obligations.EngineCombineAddsAndContinues := by
  intro s sum h hr ha hb hc hd
  obtain rfl := eq_addQuad_of_toNat ha hb hc hd
  have hexec := execEngCombine_enabled h hr
  refine ⟨fun hn => ?_, fun hn => ?_, fun hn => ?_⟩
  · exact hexec.trans (congrArg _ (afterCombine_absorb hn))
  · exact hexec.trans (congrArg _ (afterCombine_done hn))
  · refine ⟨_, hexec.trans (congrArg _ (afterCombine_pad2_of_compress hn h)), fun k => ?_, rfl⟩
    exact read_secondPadding s.len s.buf k

end Sys2Proof
end

section
/-! PROOFS. The laws of the serializer (43_serializer.md): the characters of the digest string one by one (R220, R221), the
words the read-out registers show (R223 to R225), and the statements about them. -/

namespace Sys2Proof.Machine

/-! ### What the read-outs answer -/

theorem exec_rdDigest (sel : BitVec 2) (data : Word) (s : State) :
    exec (.rdDigest sel data) s = .next { s with readData := some (digestWord s.acc sel) } := by
  rw [exec, execRdDigest, answer_eq]

theorem exec_rdLenLo (data : Word) (s : State) :
    exec (.rdLenLo data) s = .next { s with readData := some (lenLow s.len) } := by
  rw [exec, execRdLenLo, answer_eq]

theorem exec_rdLenHi (data : Word) (s : State) :
    exec (.rdLenHi data) s = .next { s with readData := some (lenHigh s.len) } := by
  rw [exec, execRdLenHi, answer_eq]

theorem exec_rdHex (sel : BitVec 3) (data : Word) (s : State) :
    exec (.rdHex sel data) s = .next { s with readData := some (hexWord s.acc sel) } := by
  rw [exec, execRdHex, answer_eq]

/-! ### The digest words and the halves of the length -/

@[simp] theorem digestWord_zero (h : Quad) : digestWord h 0 = h.a := rfl
@[simp] theorem digestWord_one (h : Quad) : digestWord h 1 = h.b := rfl
@[simp] theorem digestWord_two (h : Quad) : digestWord h 2 = h.c := rfl
@[simp] theorem digestWord_three (h : Quad) : digestWord h 3 = h.d := rfl

theorem lenLow_eq_ofNat_mod (v : DWord) : lenLow v = BitVec.ofNat 32 (v.toNat % 2 ^ 32) := by
  apply BitVec.eq_of_toNat_eq
  rw [lenLow, BitVec.extractLsb'_toNat, Nat.shiftRight_zero, BitVec.toNat_ofNat, Nat.mod_mod]

theorem lenHigh_eq_ofNat_div (v : DWord) : lenHigh v = BitVec.ofNat 32 (v.toNat / 2 ^ 32) := by
  apply BitVec.eq_of_toNat_eq
  rw [lenHigh, BitVec.extractLsb'_toNat, Nat.shiftRight_eq_div_pow, BitVec.toNat_ofNat]

/-! ### The characters of the digest string -/

theorem toNat_hexChar : ∀ v : BitVec 4,
    (hexChar v).toNat = if v.toNat < 10 then 0x30 + v.toNat else 0x61 + (v.toNat - 10) := by decide

theorem hexBytes_cons (b : Byte) (bs : List Byte) :
    hexBytes (b :: bs) = hexChar (b.extractLsb' 4 4) :: hexChar (b.extractLsb' 0 4) :: hexBytes bs := rfl

/-- Character c shows byte c / 2: the high nibble when c is even, the low one when it is odd (R221). -/
theorem getD_hexBytes : ∀ {bytes : List Byte} {c : Nat}, c < 2 * bytes.length →
    (hexBytes bytes).getD c 0 = hexChar ((bytes.getD (c / 2) 0).extractLsb' (4 * (1 - c % 2)) 4)
  | [], _, hc => absurd hc (Nat.not_lt_zero _)
  | _ :: _, 0, _ => rfl
  | _ :: _, 1, _ => rfl
  | b :: bs, c + 2, hc => by
    have hrest : c < 2 * bs.length := by rw [List.length_cons] at hc; omega
    have hbyte : (c + 2) / 2 = c / 2 + 1 := by omega
    rw [hexBytes_cons, List.getD_cons_succ, List.getD_cons_succ, getD_hexBytes hrest, hbyte, List.getD_cons_succ,
      Nat.add_mod_right]

/-- Byte m of words in sequence is lane m mod 4 of word m / 4 (R8). -/
theorem getD_flatMap_le32Bytes : ∀ (words : List Word) (m : Nat),
    (words.flatMap le32Bytes).getD m 0 = lane (words.getD (m / 4) 0) (m % 4)
  | [], _ => (BitVec.extractLsb'_zero ..).symm
  | _ :: _, 0 => rfl
  | _ :: _, 1 => rfl
  | _ :: _, 2 => rfl
  | _ :: _, 3 => rfl
  | w :: ws, m + 4 => by
    have hword : (m + 4) / 4 = m / 4 + 1 := by omega
    have hskip : ((w :: ws).flatMap le32Bytes).getD (m + 4) 0 = (ws.flatMap le32Bytes).getD m 0 := rfl
    rw [hskip, getD_flatMap_le32Bytes ws m, hword, List.getD_cons_succ, Nat.add_mod_right]

theorem serialize_eq_flatMap (h : Quad) : serialize h = [h.a, h.b, h.c, h.d].flatMap le32Bytes := rfl

/-- Digest byte 4r + m is lane m of register r (R220). -/
theorem getD_serialize (h : Quad) (m : Nat) :
    (serialize h).getD m 0 = lane ([h.a, h.b, h.c, h.d].getD (m / 4) 0) (m % 4) := by
  rw [serialize_eq_flatMap, getD_flatMap_le32Bytes]

@[simp] theorem length_serialize (h : Quad) : (serialize h).length = 16 := rfl

/-- Character c of the digest string is a nibble of digest byte c / 2 (R220, R221). -/
theorem getD_digestString (h : Quad) {c : Nat} (hc : c < 32) :
    (digestString h).getD c 0 =
      hexChar ((lane ([h.a, h.b, h.c, h.d].getD (c / 2 / 4) 0) (c / 2 % 4)).extractLsb' (4 * (1 - c % 2)) 4) := by
  rw [digestString, getD_hexBytes (by rw [length_serialize]; exact hc), getD_serialize]

/-- A nibble inside a byte lane is a nibble of the word. -/
theorem extractLsb'_lane (w : Word) (k : Nat) {p : Nat} (hp : p ≤ 4) :
    (lane w k).extractLsb' p 4 = w.extractLsb' (8 * k + p) 4 := by
  apply BitVec.eq_of_getLsbD_eq
  intro i hi
  have hbit : p + i < 8 := by omega
  simp [lane, hbit, Nat.add_assoc]

theorem toNat_extractLsb'_lane (w : Word) (k : Nat) {p : Nat} (hp : p ≤ 4) :
    ((lane w k).extractLsb' p 4).toNat = w.toNat / 2 ^ (8 * k) / 2 ^ p % 16 := by
  rw [extractLsb'_lane w k hp, BitVec.extractLsb'_toNat, Nat.shiftRight_add, Nat.shiftRight_eq_div_pow,
    Nat.shiftRight_eq_div_pow]

theorem lane_hexWord (h : Quad) (k : BitVec 3) {j : Nat} (hj : j < 4) :
    lane (hexWord h k) j = (digestString h).getD (4 * k.toNat + j) 0 := by
  interval_cases j
  · exact lane_le32_zero ..
  · exact lane_le32_one ..
  · exact lane_le32_two ..
  · exact lane_le32_three ..

end Sys2Proof.Machine

namespace Sys2Proof

open Machine

/-- Settles O22: lane j is character 4k + j of the digest string, a nibble of the lane of a register, in hexadecimal. -/
theorem hexReadShowsTheDigestCharacters : Obligations.HexReadShowsTheDigestCharacters := by
  intro s sel data
  refine ⟨hexWord s.acc sel, exec_rdHex sel data s, fun j c m n hj hc hm hn => ?_⟩
  subst hm
  have hc32 : c < 32 := by have := sel.isLt; omega
  have hnibble : 4 * (1 - c % 2) ≤ 4 := by omega
  rw [lane_hexWord s.acc sel hj, ← hc, getD_digestString s.acc hc32, toNat_hexChar,
    toNat_extractLsb'_lane _ _ hnibble, ← hn]

/-- Settles O20: the read answers `digestWord`, register by register. -/
theorem digestReadShowsTheAccumulator : Obligations.DigestReadShowsTheAccumulator := by
  intro s data
  simp only [exec_rdDigest, digestWord_zero, digestWord_one, digestWord_two, digestWord_three, and_self]

/-- Settles O21: the low half is the remainder of L by 2^32 and the high half the quotient. -/
theorem lengthReadsShowBothHalves : Obligations.LengthReadsShowBothHalves := by
  intro s data
  rw [← lenLow_eq_ofNat_mod, ← lenHigh_eq_ofNat_div]
  exact ⟨exec_rdLenLo data s, exec_rdLenHi data s⟩

end Sys2Proof
end

section
/-! PROOFS. The laws of the commands, of the refused writes and of the reads of STATUS and the registers without a value
(44_control.md), and the statements about them. -/

namespace Sys2Proof

/-! ### The words that are no command and the words that write no register -/

/-- A command's DATA has its code, 0x01 to 0x04, in bits 7:0 and nothing above (R103). -/
theorem legalCommand_fields {data : Word} (h : legalCommand data = true) :
    data.extractLsb' 8 24 = 0 ∧ lane data 0 ≠ 0 ∧ (lane data 0).toNat < 5 := by
  simp only [legalCommand, Bool.or_eq_true, beq_iff_eq] at h
  obtain ((rfl | rfl) | rfl) | rfl := h <;> decide

theorem decodeCommand_illegal {data : Word} (h : legalCommand data = false) :
    decodeCommand data = .cmdIllegal data := by
  simp only [legalCommand, Bool.or_eq_false_iff, beq_eq_false_iff_ne] at h
  obtain ⟨⟨⟨h1, h2⟩, h3⟩, h4⟩ := h
  rw [decodeCommand, if_neg h1, if_neg h2, if_neg h3, if_neg h4]

/-- From WIDX 4 on a write is decoded by the range WIDX lies in (R102). -/
theorem decodeWrite_of_four_le {widx : BitVec 5} (h : 4 ≤ widx.toNat) (data : Word) :
    decodeWrite widx data =
      if widx.toNat ≤ 7 then .wrDigest (widx.extractLsb' 0 2) data
      else if widx.toNat ≤ 9 then .wrLen (widx.extractLsb' 0 1) data
      else if widx.toNat ≤ 11 then .wrRsvd10 (widx.extractLsb' 0 1) data
      else if widx.toNat ≤ 15 then .wrRsvd12 (widx.extractLsb' 0 2) data
      else if widx.toNat ≤ 23 then .wrHex (widx.extractLsb' 0 3) data
      else .wrRsvd24 (widx.extractLsb' 0 3) data := by
  have below : ∀ k : BitVec 5, k.toNat < 4 → widx ≠ k := fun k hk he => by subst he; omega
  rw [decodeWrite, if_neg (below 0 (by decide)), if_neg (below 1 (by decide)), if_neg (below 2 (by decide)),
    if_neg (below 3 (by decide))]

end Sys2Proof

namespace Sys2Proof.Machine

/-! ### What the commands, the refused writes and the reads of STATUS do -/

theorem exec_cmdClrErr (s : State) : exec .cmdClrErr s = .next (clearError s) := by rw [exec, execCmdClrErr]

theorem exec_cmdSreset (s : State) : exec .cmdSreset s = .next (resetCore s) := by rw [exec, execCmdSreset]

theorem exec_cmdIllegal (data : Word) (s : State) : exec (.cmdIllegal data) s = raiseError .badCmd s := by
  rw [exec, execCmdIllegal]

/-- A write of STATUS or of WIDX 4..31 is refused, whichever row it decodes to (R246). -/
theorem exec_decodeWrite_refused {widx : BitVec 5} (h : widx = 1 ∨ 4 ≤ widx.toNat) (data : Word) (s : State) :
    exec (decodeWrite widx data) s = raiseError .rowrite s := by
  obtain rfl | h4 := h
  · rfl
  · rw [decodeWrite_of_four_le h4]
    split_ifs <;> rfl

theorem exec_rdStatus (data : Word) (s : State) :
    exec (.rdStatus data) s = .next { s with readData := some (statusWord s) } := by
  rw [exec, execRdStatus, answer_eq]

/-! ### The fields of the STATUS word -/

/-- A field of a register with its lowest bit at bit `p`, every other bit 0 (R40). -/
def placed {n : Nat} (x : BitVec n) (p : Nat) : Word := x.setWidth 32 <<< p

theorem statusWord_eq_placed (s : State) :
    statusWord s =
      placed s.bcount 16 ||| placed (errCodeBits s.errcode) 8 ||| placed (phaseCode s.phase) 4 |||
        placed (BitVec.ofBool s.lenwrap) 3 ||| placed (BitVec.ofBool s.err) 2 ||| placed (doneBit s) 1 |||
        placed (busyBit s) 0 := by
  simp only [statusWord, placed, BitVec.shiftLeft_zero]

section
variable {n p : Nat} (x : BitVec n)

theorem extractLsb'_placed_same (h : p + n ≤ 32) : (placed x p).extractLsb' p n = x := by
  apply BitVec.eq_of_getLsbD_eq
  intro i hi
  have hbit : p + i < 32 := by omega
  simp [placed, hi, hbit]

theorem extractLsb'_placed_disjoint {q m : Nat} (h : q + m ≤ p ∨ p + n ≤ q) : (placed x p).extractLsb' q m = 0 := by
  apply BitVec.eq_of_getLsbD_eq
  intro i hi
  obtain hbelow | habove := h
  · have hbit : q + i < p := by omega
    simp [placed, hbit]
  · have hbit : n ≤ q + i - p := by omega
    simp [placed, BitVec.getLsbD_of_ge x _ hbit]

end

theorem getLsbD_eq_of_extractLsb' {v : Word} {k : Nat} {b : Bool} (h : v.extractLsb' k 1 = BitVec.ofBool b) :
    v.getLsbD k = b := by
  have hbit := congrArg (·.getLsbD 0) h
  simpa using hbit

end Sys2Proof.Machine

namespace Sys2Proof

open Machine

/-- Settles O9: in COMPRESS the refusal; else the state `exec_cmdInit` gives, whose PHASE is ABSORB, so that a second INIT
is accepted and writes the same values again. -/
theorem initLoadsIvAndStartsAMessage : Obligations.InitLoadsIvAndStartsAMessage := by
  refine fun s => ⟨exec_cmdInit_busy, fun h => ⟨_, exec_cmdInit h, Memory.read_nil, rfl, ?_⟩⟩
  exact exec_cmdInit (by simp)

/-- Settles O11: the effect is `clearError`. -/
theorem clrErrClearsOnlyTheErrorRecord : Obligations.ClrErrClearsOnlyTheErrorRecord := exec_cmdClrErr

/-- Settles O12: the effect is `resetCore`, field by field. -/
theorem sresetGivesTheResetValues : Obligations.SresetGivesTheResetValues := by
  refine fun s => ⟨resetCore s, exec_cmdSreset s, ?_⟩
  simp

/-- Settles O14: DATA that meets the condition is no command's, and what is no command's decodes to CMD.ILLEGAL. -/
theorem illegalCommandRecordsBadCmd : Obligations.IllegalCommandRecordsBadCmd := by
  refine ⟨fun data h => ?_, exec_cmdIllegal⟩
  have hillegal : legalCommand data = false := by
    refine Bool.eq_false_iff.mpr fun hlegal => ?_
    obtain ⟨habove, hcode, hlt⟩ := legalCommand_fields hlegal
    obtain h | h | h := h
    · exact h habove
    · exact hcode h
    · omega
  exact (decode_busWord true 0 data).trans (decodeCommand_illegal hillegal)

/-- Settles O17: the decoded write is refused, and each of the seven refused rows is one and the same refusal. -/
theorem refusedWritesRecordRoWrite : Obligations.RefusedWritesRecordRoWrite := by
  refine ⟨fun widx data h s => ?_, fun s t data sel1 sel2 sel3 ht => ?_⟩
  · rw [decode_busWord]
    exact exec_decodeWrite_refused h data s
  · have refused : refuseWrite s = .next t := ht ▸ raiseError_eq .rowrite s
    exact ⟨refused, refused, refused, refused, refused, refused, refused⟩

/-- Settles O18: each of the six reads answers 0. -/
theorem writeOnlyAndReservedRegistersReadZero : Obligations.WriteOnlyAndReservedRegistersReadZero := by
  intro s data sel1 sel2 sel3
  have zero := answer_eq 0 s
  exact ⟨zero, zero, zero, zero, zero, zero⟩

/-- Settles O19: STATUS is the union of its placed fields; at the bits of one field, and at reserved bits, the others
leave 0. -/
theorem statusReadShowsEveryField : Obligations.StatusReadShowsEveryField := by
  refine fun s data => ⟨statusWord s, exec_rdStatus data s, getLsbD_eq_of_extractLsb' ?_, getLsbD_eq_of_extractLsb' ?_,
    getLsbD_eq_of_extractLsb' ?_, getLsbD_eq_of_extractLsb' ?_, ?phase, ?_, ?errcode, ?_, ?_, ?_⟩
  all_goals simp only [statusWord_eq_placed, BitVec.extractLsb'_or]
  all_goals simp [extractLsb'_placed_same, extractLsb'_placed_disjoint, busyBit, doneBit]
  case phase => cases s.phase <;> rfl
  case errcode => cases s.errcode <;> rfl

end Sys2Proof
end

section
/-! PROOFS. The invariant of the core: each effect of an operation keeps it, hence every step does (10_state.md sections 2
to 5, 42_compressor.md section 3). -/

namespace Sys2Proof.Machine

variable {s : State}

/-! ### Effects that touch neither the message nor the block -/

/-- Of the error record and the boundary fields the invariant asks only that the record be consistent. -/
theorem Inv.atBoundary (h : Inv s) {e : Bool} {c : ErrCode} (hc : e = true ↔ c ≠ .none) (v : Option Word)
    (evs : List Event) : Inv (atBoundary s e c v evs) where
  bufCanonical := h.bufCanonical
  rndAtRest := h.rndAtRest
  noBytesOutsideAbsorb := h.noBytesOutsideAbsorb
  wholeBytes := h.wholeBytes
  bytesCounted := h.bytesCounted
  fullBlock := h.fullBlock
  secondBlockNeeded := h.secondBlockNeeded
  roundsDone := h.roundsDone
  errorRecorded := hc
  nothingInIdle := h.nothingInIdle

theorem Inv.setBoundary (h : Inv s) (v : Option Word) (evs : List Event) :
    Inv { s with readData := v, events := evs } := h.atBoundary h.errorRecorded v evs

theorem Inv.setErrorRecord (h : Inv s) {e : Bool} {c : ErrCode} (hc : e = true ↔ c ≠ .none) :
    Inv { s with err := e, errcode := c } := h.atBoundary hc s.readData s.events

theorem Inv.recordError (h : Inv s) {c : ErrCode} (hc : c ≠ .none) : Inv (recordError c s) := by
  refine h.setErrorRecord ⟨fun _ => ?_, fun _ => rfl⟩
  split
  · exact h.errorRecorded.mp ‹_›
  · exact hc

theorem Inv.clearError (h : Inv s) : Inv (clearError s) := h.setErrorRecord (by simp)

theorem inv_resetCore (s : State) : Inv (resetCore s) := by
  constructor <;> simp

/-- INIT takes in no byte yet, and keeps the error record (R240). -/
theorem Inv.cmdInit (h : Inv s) (hp : s.phase ≠ .compress) :
    Inv { s with acc := iv, len := 0, lenwrap := false, buf := [], bcount := 0, phase := .absorb } := by
  constructor
  case rndAtRest => exact fun _ => h.rndAtRest hp
  case errorRecorded => exact h.errorRecorded
  all_goals simp

/-! ### Starting a block -/

/-- A block that starts needs a canonical buffer, whole bytes, a consistent record, and a length that NEXT agrees with. -/
theorem inv_startCompress {nx : Next} (hbuf : s.buf.wf = true) (hlen : s.len.toNat % 8 = 0)
    (hfull : nx = .absorb → s.len.toNat / 8 % 64 = 0) (hsecond : nx = .pad2 → 56 ≤ s.len.toNat / 8 % 64)
    (herr : s.err = true ↔ s.errcode ≠ .none) : Inv (startCompress nx s) := by
  constructor
  case bufCanonical => exact hbuf
  case wholeBytes => exact hlen
  case fullBlock => exact fun _ => hfull
  case secondBlockNeeded => exact fun _ => hsecond
  case errorRecorded => exact herr
  case roundsDone => exact fun _ => rfl
  all_goals simp

/-- L counts whole bytes modulo 2^64, so it keeps step with BCOUNT also where it wraps (R143, R145). -/
theorem length_after_push {len : DWord} {bcount : Nat} (n : Nat) (h8 : len.toNat % 8 = 0)
    (hb : len.toNat / 8 % 64 = bcount) :
    (BitVec.ofNat 64 (len.toNat + 8 * n)).toNat % 8 = 0 ∧
      (BitVec.ofNat 64 (len.toNat + 8 * n)).toNat / 8 % 64 = (bcount + n) % 64 := by
  rw [BitVec.toNat_ofNat]
  omega

/-- A push keeps the invariant where its bytes fit into the block (R141, R142, R144). -/
theorem Inv.acceptBytes (h : Inv s) (hp : s.phase = .absorb) {bytes : List Byte}
    (hfit : s.bcount.toNat + bytes.length ≤ 64) : Inv (acceptBytes bytes s) := by
  have hbuf : (s.buf.writeBytes s.bcount.toNat bytes).wf = true := Memory.wf_writeBytes hfit h.bufCanonical
  obtain ⟨hwhole, hcount⟩ := length_after_push bytes.length h.wholeBytes (h.bytesCounted hp)
  by_cases hfull : s.bcount.toNat + bytes.length = 64
  · rw [acceptBytes_full hfull]
    refine inv_startCompress hbuf hwhole (fun _ => ?_) (by simp) h.errorRecorded
    rw [hfull] at hcount
    exact hcount
  · rw [acceptBytes_partial hfull]
    constructor
    case bufCanonical => exact hbuf
    case rndAtRest => exact fun _ => h.rndAtRest (by simp [hp])
    case wholeBytes => exact hwhole
    case bytesCounted =>
      refine fun _ => hcount.trans ?_
      rw [BitVec.toNat_ofNat]
    case errorRecorded => exact h.errorRecorded
    all_goals simp [hp]

/-- FINAL keeps the invariant: it plans a second block exactly where 56 bytes or more are in the first (R163, R164). -/
theorem Inv.finalPadding (h : Inv s) (hp : s.phase = .absorb) : Inv (finalPadding s) := by
  have hmark := wf_markEnd (Nat.le_of_lt_succ s.bcount.isLt) h.bufCanonical
  by_cases hshort : s.bcount.toNat ≤ 55
  · rw [finalPadding_short hshort]
    exact inv_startCompress (wf_writeLength _ hmark) h.wholeBytes (by simp) (by simp) h.errorRecorded
  · have hlong : 56 ≤ s.bcount.toNat := by omega
    rw [finalPadding_long hlong]
    refine inv_startCompress hmark h.wholeBytes (by simp) (fun _ => ?_) h.errorRecorded
    rw [← h.bytesCounted hp] at hlong
    exact hlong

/-! ### The Engine's steps -/

theorem next_cases (s : State) : s.next = .absorb ∨ s.next = .done ∨ s.next = .pad2 := by
  cases s.next <;> simp

/-- The three things the combine step can do, by NEXT (R203). -/
theorem combine_cases (s : State) :
    (s.next = .absorb ∧ afterCombine { s with acc := addQuad s.acc s.work, rnd := 0 } =
      { s with acc := addQuad s.acc s.work, rnd := 0, phase := .absorb }) ∨
    (s.next = .done ∧ afterCombine { s with acc := addQuad s.acc s.work, rnd := 0 } =
      { s with acc := addQuad s.acc s.work, rnd := 0, phase := .done }) ∨
    (s.next = .pad2 ∧ afterCombine { s with acc := addQuad s.acc s.work, rnd := 0 } =
      startCompress .done { s with acc := addQuad s.acc s.work, rnd := 0, buf := secondPadding s.len s.buf }) := by
  obtain hn | hn | hn := next_cases s
  · exact .inl ⟨hn, afterCombine_absorb hn⟩
  · exact .inr (.inl ⟨hn, afterCombine_done hn⟩)
  · exact .inr (.inr ⟨hn, afterCombine_pad2 hn⟩)

theorem Inv.engRound (h : Inv s) (hp : s.phase = .compress) (hr : s.rnd.val < 64) :
    Inv { s with work := round s.rnd.val s.work s.buf.block, rnd := ⟨s.rnd.val + 1, by omega⟩ } where
  bufCanonical := h.bufCanonical
  rndAtRest := fun hne => absurd hp hne
  noBytesOutsideAbsorb := h.noBytesOutsideAbsorb
  wholeBytes := h.wholeBytes
  bytesCounted := h.bytesCounted
  fullBlock := h.fullBlock
  secondBlockNeeded := h.secondBlockNeeded
  roundsDone := fun _ => congrArg (round s.rnd.val · s.buf.block) (h.roundsDone hp)
  errorRecorded := h.errorRecorded
  nothingInIdle := h.nothingInIdle

/-- The combine step ends a full block with no byte collected, or starts the second padding block (R203). -/
theorem Inv.engCombine (h : Inv s) (hp : s.phase = .compress) :
    Inv (afterCombine { s with acc := addQuad s.acc s.work, rnd := 0 }) := by
  have hbcount : s.bcount = 0 := h.noBytesOutsideAbsorb (by simp [hp])
  obtain ⟨hn, e⟩ | ⟨-, e⟩ | ⟨-, e⟩ := combine_cases s <;> rw [e]
  · constructor
    case bufCanonical => exact h.bufCanonical
    case wholeBytes => exact h.wholeBytes
    case bytesCounted => simpa [hbcount] using h.fullBlock hp hn
    case errorRecorded => exact h.errorRecorded
    all_goals simp
  · constructor
    case bufCanonical => exact h.bufCanonical
    case wholeBytes => exact h.wholeBytes
    case noBytesOutsideAbsorb => exact fun _ => hbcount
    case errorRecorded => exact h.errorRecorded
    all_goals simp
  · exact inv_startCompress (wf_secondPadding _ h.bufCanonical) h.wholeBytes (by simp) (by simp) h.errorRecorded

/-! ### Every operation and every step -/

/-- Each effect of `exec_next_cases` keeps the invariant; PUSH.W fits because BCOUNT is a multiple of 4. -/
theorem Inv.exec (h : Inv s) {i : Instr} {t : State} (he : exec i s = .next t) : Inv t := by
  obtain ⟨c, hc, rfl, -⟩ | ⟨v, -, rfl⟩ | ⟨-, hp, rfl⟩ | ⟨-, hp, rfl⟩ | ⟨-, rfl⟩ | ⟨-, rfl⟩ |
    ⟨b0, b1, b2, b3, -, hp, h4, rfl⟩ | ⟨b, -, hp, rfl⟩ | ⟨hp, hr, -, rfl⟩ | ⟨-, hp, -, rfl⟩ := exec_next_cases he
  · exact h.recordError hc
  · exact h.setBoundary _ _
  · exact h.cmdInit hp
  · exact h.finalPadding hp
  · exact h.clearError
  · exact inv_resetCore s
  · have hfit : s.bcount.toNat + 4 ≤ 64 := by have := s.bcount.isLt; omega
    exact h.acceptBytes hp hfit
  · have hfit : s.bcount.toNat + 1 ≤ 64 := by have := s.bcount.isLt; omega
    exact h.acceptBytes hp hfit
  · exact h.engRound hp hr
  · exact h.engCombine hp

end Sys2Proof.Machine

namespace Sys2Proof

open Machine

/-- Settles O37: a step is an operation of the core, the reset input, or changes nothing but the waiting inputs, and each of
these keeps the invariant. -/
theorem invariantKeptByEveryStep : Obligations.InvariantKeptByEveryStep := by
  intro s t h hs
  obtain ⟨rest, ⟨i, hi⟩ | rfl | rfl⟩ := step_next_cases hs
  · exact (h.setBoundary s.readData rest).exec hi
  · exact h.setBoundary s.readData rest
  · exact inv_resetCore _

/-- Settles O36: every register holds its reset value. -/
theorem invariantHoldsAtReset : Obligations.InvariantHoldsAtReset := inv_resetCore State.reset

end Sys2Proof
end

section
/-! PROOFS. The encoding (30_encoding.md): decoding and encoding agree (R100 to R109), the decoder follows the opcode table
(R108). -/

namespace Sys2Proof

/-! ### The selector in a word index -/

theorem toNat_append_selector {m n : Nat} (p : BitVec m) (sel : BitVec n) :
    (p ++ sel).toNat = p.toNat * 2 ^ n + sel.toNat := by
  rw [BitVec.toNat_append, ← Nat.shiftLeft_add_eq_or_of_lt sel.isLt, Nat.shiftLeft_eq]

/-- A word index in the range of a row is the row's high bits and a selector. -/
theorem append_extractLsb'_of_div {m n k : Nat} {x : BitVec (m + n)} (h : x.toNat / 2 ^ n = k) :
    BitVec.ofNat m k ++ x.extractLsb' 0 n = x := by
  have hp : BitVec.ofNat m k = x.extractLsb' n m := by
    rw [← h, ← Nat.shiftRight_eq_div_pow]
    rfl
  rw [hp, BitVec.extractLsb'_append_extractLsb']

/-! ### An operation's word decodes to the operation -/

theorem ne_of_toNat_lt {n k : Nat} {x y : BitVec n} (hx : k ≤ x.toNat) (hy : y.toNat < k) : x ≠ y := by
  rintro rfl
  omega

/-- From WIDX 4 on a read is decoded by the range WIDX lies in (R102). -/
theorem decodeRead_of_four_le {widx : BitVec 5} (h : 4 ≤ widx.toNat) (data : Word) :
    decodeRead widx data =
      if widx.toNat ≤ 7 then .rdDigest (widx.extractLsb' 0 2) data
      else if widx = 8 then .rdLenLo data
      else if widx = 9 then .rdLenHi data
      else if widx.toNat ≤ 11 then .rdRsvd10 (widx.extractLsb' 0 1) data
      else if widx.toNat ≤ 15 then .rdRsvd12 (widx.extractLsb' 0 2) data
      else if widx.toNat ≤ 23 then .rdHex (widx.extractLsb' 0 3) data
      else .rdRsvd24 (widx.extractLsb' 0 3) data := by
  have above (k : BitVec 5) (hk : k.toNat < 4) : widx ≠ k := ne_of_toNat_lt h hk
  rw [decodeRead, if_neg (above 0 (by decide)), if_neg (above 1 (by decide)), if_neg (above 2 (by decide)),
    if_neg (above 3 (by decide))]

section
variable (data : Word)

theorem decodeWrite_digest (sel : BitVec 2) : decodeWrite (1#3 ++ sel) data = .wrDigest sel data := by
  have h : (1#3 ++ sel).toNat = 1 * 2 ^ 2 + sel.toNat := toNat_append_selector ..
  have := sel.isLt
  rw [decodeWrite_of_four_le (by omega), if_pos (by omega), BitVec.extractLsb'_append_eq_right]

theorem decodeWrite_len (sel : BitVec 1) : decodeWrite (4#4 ++ sel) data = .wrLen sel data := by
  have h : (4#4 ++ sel).toNat = 4 * 2 ^ 1 + sel.toNat := toNat_append_selector ..
  have := sel.isLt
  rw [decodeWrite_of_four_le (by omega), if_neg (by omega), if_pos (by omega), BitVec.extractLsb'_append_eq_right]

theorem decodeWrite_rsvd10 (sel : BitVec 1) : decodeWrite (5#4 ++ sel) data = .wrRsvd10 sel data := by
  have h : (5#4 ++ sel).toNat = 5 * 2 ^ 1 + sel.toNat := toNat_append_selector ..
  have := sel.isLt
  rw [decodeWrite_of_four_le (by omega), if_neg (by omega), if_neg (by omega), if_pos (by omega),
    BitVec.extractLsb'_append_eq_right]

theorem decodeWrite_rsvd12 (sel : BitVec 2) : decodeWrite (3#3 ++ sel) data = .wrRsvd12 sel data := by
  have h : (3#3 ++ sel).toNat = 3 * 2 ^ 2 + sel.toNat := toNat_append_selector ..
  have := sel.isLt
  rw [decodeWrite_of_four_le (by omega), if_neg (by omega), if_neg (by omega), if_neg (by omega), if_pos (by omega),
    BitVec.extractLsb'_append_eq_right]

theorem decodeWrite_hex (sel : BitVec 3) : decodeWrite (2#2 ++ sel) data = .wrHex sel data := by
  have h : (2#2 ++ sel).toNat = 2 * 2 ^ 3 + sel.toNat := toNat_append_selector ..
  have := sel.isLt
  rw [decodeWrite_of_four_le (by omega), if_neg (by omega), if_neg (by omega), if_neg (by omega), if_neg (by omega),
    if_pos (by omega), BitVec.extractLsb'_append_eq_right]

theorem decodeWrite_rsvd24 (sel : BitVec 3) : decodeWrite (3#2 ++ sel) data = .wrRsvd24 sel data := by
  have h : (3#2 ++ sel).toNat = 3 * 2 ^ 3 + sel.toNat := toNat_append_selector ..
  have := sel.isLt
  rw [decodeWrite_of_four_le (by omega), if_neg (by omega), if_neg (by omega), if_neg (by omega), if_neg (by omega),
    if_neg (by omega), BitVec.extractLsb'_append_eq_right]

theorem decodeRead_digest (sel : BitVec 2) : decodeRead (1#3 ++ sel) data = .rdDigest sel data := by
  have h : (1#3 ++ sel).toNat = 1 * 2 ^ 2 + sel.toNat := toNat_append_selector ..
  have := sel.isLt
  rw [decodeRead_of_four_le (by omega), if_pos (by omega), BitVec.extractLsb'_append_eq_right]

/-- From WIDX 10 on only the range of WIDX decides (R102). -/
theorem decodeRead_of_ten_le {widx : BitVec 5} (h : 10 ≤ widx.toNat) :
    decodeRead widx data =
      if widx.toNat ≤ 11 then .rdRsvd10 (widx.extractLsb' 0 1) data
      else if widx.toNat ≤ 15 then .rdRsvd12 (widx.extractLsb' 0 2) data
      else if widx.toNat ≤ 23 then .rdHex (widx.extractLsb' 0 3) data
      else .rdRsvd24 (widx.extractLsb' 0 3) data := by
  have h8 : widx ≠ 8 := ne_of_toNat_lt h (by decide)
  have h9 : widx ≠ 9 := ne_of_toNat_lt h (by decide)
  rw [decodeRead_of_four_le (by omega), if_neg (by omega), if_neg h8, if_neg h9]

theorem decodeRead_rsvd10 (sel : BitVec 1) : decodeRead (5#4 ++ sel) data = .rdRsvd10 sel data := by
  have h : (5#4 ++ sel).toNat = 5 * 2 ^ 1 + sel.toNat := toNat_append_selector ..
  have := sel.isLt
  rw [decodeRead_of_ten_le data (by omega), if_pos (by omega), BitVec.extractLsb'_append_eq_right]

theorem decodeRead_rsvd12 (sel : BitVec 2) : decodeRead (3#3 ++ sel) data = .rdRsvd12 sel data := by
  have h : (3#3 ++ sel).toNat = 3 * 2 ^ 2 + sel.toNat := toNat_append_selector ..
  have := sel.isLt
  rw [decodeRead_of_ten_le data (by omega), if_neg (by omega), if_pos (by omega), BitVec.extractLsb'_append_eq_right]

theorem decodeRead_hex (sel : BitVec 3) : decodeRead (2#2 ++ sel) data = .rdHex sel data := by
  have h : (2#2 ++ sel).toNat = 2 * 2 ^ 3 + sel.toNat := toNat_append_selector ..
  have := sel.isLt
  rw [decodeRead_of_ten_le data (by omega), if_neg (by omega), if_neg (by omega), if_pos (by omega),
    BitVec.extractLsb'_append_eq_right]

theorem decodeRead_rsvd24 (sel : BitVec 3) : decodeRead (3#2 ++ sel) data = .rdRsvd24 sel data := by
  have h : (3#2 ++ sel).toNat = 3 * 2 ^ 3 + sel.toNat := toNat_append_selector ..
  have := sel.isLt
  rw [decodeRead_of_ten_le data (by omega), if_neg (by omega), if_neg (by omega), if_neg (by omega),
    BitVec.extractLsb'_append_eq_right]

end

/-- A byte in lane 0 of a MSG_BYTE write, with zeros above, is legal (R105). -/
theorem legalByte_iff (data : Word) : legalByte data = true ↔ data = le32 (lane data 0) 0 0 0 := by
  rw [legalByte, beq_iff_eq]
  constructor
  · intro h
    apply BitVec.eq_of_getLsbD_eq
    intro i hi
    rw [getLsbD_le32]
    split
    · simp [lane, *]
    · have hbit := congrArg (·.getLsbD (i - 8)) h
      have h24 : i - 8 < 24 := by omega
      have h8 : 8 + (i - 8) = i := by omega
      simpa [h24, h8] using hbit
  · intro h
    apply BitVec.eq_of_getLsbD_eq
    intro i hi
    rw [h, BitVec.getLsbD_extractLsb', getLsbD_le32]
    simp

theorem decodePushB_le32 (b : Byte) : decodePushB (le32 b 0 0 0) = .pushB b := by
  have hlegal : legalByte (le32 b 0 0 0) = true := by rw [legalByte_iff, lane_le32_zero]
  rw [decodePushB, if_pos hlegal, lane_le32_zero]

theorem decodePushB_illegal {data : Word} (h : legalByte data = false) : decodePushB data = .pushBIllegal data := by
  rw [decodePushB, if_neg (by simp [h])]

/-- Every well-formed operation is what its word decodes to: row by row, with the lemma of the row (R108). -/
theorem decode_encode {i : Instr} {w : BusWord} (hwf : i.wf = true) (he : encode i = some w) : decode w = i := by
  cases i with
  | engRound | engCombine => cases he
  | cmdIllegal data =>
    obtain rfl := Option.some.inj he
    rw [decode_busWord]
    exact decodeCommand_illegal (by simpa [Instr.wf] using hwf)
  | pushBIllegal data =>
    obtain rfl := Option.some.inj he
    rw [decode_busWord]
    exact decodePushB_illegal (by simpa [Instr.wf] using hwf)
  | pushB b =>
    obtain rfl := Option.some.inj he
    rw [decode_busWord]
    exact decodePushB_le32 b
  | cmdInit | cmdFinal | cmdClrErr | cmdSreset =>
    obtain rfl := Option.some.inj he
    rfl
  | pushW | wrStatus | rdCtrl | rdStatus | rdMsgWord | rdMsgByte | rdLenLo | rdLenHi =>
    obtain rfl := Option.some.inj he
    simp [decode_busWord, decodeWrite, decodeRead]
  | wrDigest | wrLen | wrRsvd10 | wrRsvd12 | wrHex | wrRsvd24 =>
    obtain rfl := Option.some.inj he
    simp only [decode_busWord, ↓reduceIte, decodeWrite_digest, decodeWrite_len, decodeWrite_rsvd10, decodeWrite_rsvd12,
      decodeWrite_hex, decodeWrite_rsvd24]
  | rdDigest | rdRsvd10 | rdRsvd12 | rdHex | rdRsvd24 =>
    obtain rfl := Option.some.inj he
    simp only [decode_busWord, Bool.false_eq_true, ↓reduceIte, decodeRead_digest, decodeRead_rsvd10, decodeRead_rsvd12,
      decodeRead_hex, decodeRead_rsvd24]

/-! ### A word is the encoding of the operation it decodes to -/

/-- `w` is the word of the well-formed operation `i`. -/
def Encodes (w : BusWord) (i : Instr) : Prop := i.wf = true ∧ encode i = some w

theorem Encodes.ite {w : BusWord} {i j : Instr} {c : Prop} [Decidable c] (hi : c → Encodes w i)
    (hj : ¬ c → Encodes w j) : Encodes w (if c then i else j) := by
  split
  · exact hi ‹_›
  · exact hj ‹_›

theorem encodes_decodeCommand (data : Word) : Encodes (busWord true 0 data) (decodeCommand data) := by
  by_cases h : legalCommand data = true
  · simp only [legalCommand, Bool.or_eq_true, beq_iff_eq] at h
    obtain ((rfl | rfl) | rfl) | rfl := h <;> exact ⟨rfl, rfl⟩
  · rw [decodeCommand_illegal (by simpa using h)]
    exact ⟨by simpa [Instr.wf] using h, rfl⟩

theorem encodes_decodePushB (data : Word) : Encodes (busWord true 3 data) (decodePushB data) := by
  by_cases h : legalByte data = true
  · rw [legalByte_iff] at h
    rw [h, decodePushB_le32]
    exact ⟨rfl, rfl⟩
  · rw [decodePushB_illegal (by simpa using h)]
    exact ⟨by simpa [Instr.wf] using h, rfl⟩

theorem four_le_of_ne : ∀ {widx : BitVec 5}, widx ≠ 0 → widx ≠ 1 → widx ≠ 2 → widx ≠ 3 → 4 ≤ widx.toNat := by
  decide

/-- Along the branches of the decoder: a single register, or a range of WIDX whose selector is its low bits (R102). -/
theorem encodes_decodeWrite (widx : BitVec 5) (data : Word) :
    Encodes (busWord true widx data) (decodeWrite widx data) := by
  unfold decodeWrite
  refine .ite (fun h => h ▸ encodes_decodeCommand data) fun h0 => ?_
  refine .ite (fun h => h ▸ ⟨rfl, rfl⟩) fun h1 => ?_
  refine .ite (fun h => ⟨rfl, by rw [encode, le32_lanes, h]⟩) fun h2 => ?_
  refine .ite (fun h => h ▸ encodes_decodePushB data) fun h3 => ?_
  have h4 := four_le_of_ne h0 h1 h2 h3
  refine .ite (fun h => ⟨rfl, ?_⟩) fun h7 => ?_
  · rw [encode, append_extractLsb'_of_div (by omega)]
  refine .ite (fun h => ⟨rfl, ?_⟩) fun h9 => ?_
  · rw [encode, append_extractLsb'_of_div (by omega)]
  refine .ite (fun h => ⟨rfl, ?_⟩) fun h11 => ?_
  · rw [encode, append_extractLsb'_of_div (by omega)]
  refine .ite (fun h => ⟨rfl, ?_⟩) fun h15 => ?_
  · rw [encode, append_extractLsb'_of_div (by omega)]
  refine .ite (fun h => ⟨rfl, ?_⟩) fun h23 => ⟨rfl, ?_⟩
  · rw [encode, append_extractLsb'_of_div (by omega)]
  · rw [encode, append_extractLsb'_of_div (by omega)]

theorem ten_le_of_ne : ∀ {widx : BitVec 5}, ¬ widx.toNat ≤ 7 → widx ≠ 8 → widx ≠ 9 → 10 ≤ widx.toNat := by
  decide

theorem encodes_decodeRead (widx : BitVec 5) (data : Word) :
    Encodes (busWord false widx data) (decodeRead widx data) := by
  unfold decodeRead
  refine .ite (fun h => h ▸ ⟨rfl, rfl⟩) fun h0 => ?_
  refine .ite (fun h => h ▸ ⟨rfl, rfl⟩) fun h1 => ?_
  refine .ite (fun h => h ▸ ⟨rfl, rfl⟩) fun h2 => ?_
  refine .ite (fun h => h ▸ ⟨rfl, rfl⟩) fun h3 => ?_
  have h4 := four_le_of_ne h0 h1 h2 h3
  refine .ite (fun h => ⟨rfl, ?_⟩) fun h7 => ?_
  · rw [encode, append_extractLsb'_of_div (by omega)]
  refine .ite (fun h => h ▸ ⟨rfl, rfl⟩) fun h8 => ?_
  refine .ite (fun h => h ▸ ⟨rfl, rfl⟩) fun h9 => ?_
  have h10 := ten_le_of_ne h7 h8 h9
  refine .ite (fun h => ⟨rfl, ?_⟩) fun h11 => ?_
  · rw [encode, append_extractLsb'_of_div (by omega)]
  refine .ite (fun h => ⟨rfl, ?_⟩) fun h15 => ?_
  · rw [encode, append_extractLsb'_of_div (by omega)]
  refine .ite (fun h => ⟨rfl, ?_⟩) fun h23 => ⟨rfl, ?_⟩
  · rw [encode, append_extractLsb'_of_div (by omega)]
  · rw [encode, append_extractLsb'_of_div (by omega)]

theorem encodes_decode (w : BusWord) : Encodes w (decode w) := by
  rw [← busWord_fields w, decode_busWord]
  cases opWrite w
  · exact encodes_decodeRead _ _
  · exact encodes_decodeWrite _ _

theorem encode_eq_none_iff (i : Instr) : encode i = none ↔ i = .engRound ∨ i = .engCombine := by
  cases i <;> simp [encode]

/-! ### The rows of the opcode table -/

/-- A row is matched field by field. -/
theorem match_row_iff (b : Bool) (widx : BitVec 5) (data : Word) (r : TableRow) :
    (busWord b widx data &&& r.mask = r.pattern) ↔
      (b && opWrite r.mask) = opWrite r.pattern ∧ widx &&& opWidx r.mask = opWidx r.pattern ∧
        data &&& opData r.mask = opData r.pattern := by
  have hand (w v : BusWord) : w &&& v =
      busWord (opWrite w && opWrite v) (opWidx w &&& opWidx v) (opData w &&& opData v) := by
    rw [← busWord_fields (w &&& v)]
    congr 1
    · exact BitVec.getLsbD_and
    · exact BitVec.extractLsb'_and
    · exact BitVec.extractLsb'_and
  rw [hand, opWrite_busWord, opWidx_busWord, opData_busWord]
  constructor
  · intro h
    rw [← h, opWrite_busWord, opWidx_busWord, opData_busWord]
    exact ⟨rfl, rfl, rfl⟩
  · rintro ⟨hb, hw, hd⟩
    rw [hb, hw, hd, busWord_fields]

/-- A row tests nothing of DATA, or all of it for a command's code, or that DATA[31:8] is 0 (R103, R105). -/
theorem opcodeTable_tests_data : ∀ r ∈ opcodeTable, opData r.mask = 0#32 ∨
    (opData r.mask = BitVec.allOnes 32 ∧ legalCommand (opData r.pattern) = true) ∨
    (opData r.mask = 0xffffff00 ∧ opData r.pattern = 0) := by
  decide

/-- A DATA that every row treats as `data`: a command's code as it is, else 0 or 0x100 as DATA[31:8] is 0 or not. -/
def representative (data : Word) : Word :=
  if legalCommand data then data else if legalByte data then 0 else 0x100

theorem representative_cases (data : Word) :
    (legalCommand data = true ∧ representative data = data) ∨
    (legalCommand data = false ∧ legalByte data = true ∧ representative data = 0) ∨
    (legalCommand data = false ∧ legalByte data = false ∧ representative data = 0x100) := by
  unfold representative
  cases legalCommand data <;> cases legalByte data <;> simp

theorem legalCommand_representative (data : Word) : legalCommand (representative data) = legalCommand data := by
  obtain ⟨h, e⟩ | ⟨h, -, e⟩ | ⟨h, -, e⟩ := representative_cases data <;> rw [e, h] <;> rfl

theorem legalByte_representative (data : Word) : legalByte (representative data) = legalByte data := by
  obtain ⟨-, e⟩ | ⟨-, h, e⟩ | ⟨-, h, e⟩ := representative_cases data <;> rw [e]
  all_goals
    rw [h]
    rfl

/-- PUSH.B's mask selects DATA[31:8]. -/
theorem legalByte_iff_and (data : Word) : legalByte data = true ↔ data &&& 0xffffff00 = 0 := by
  have hmask : ∀ i : Fin 32, (0xffffff00 : Word).getLsbD i = decide (8 ≤ i.val) := by decide
  rw [legalByte, beq_iff_eq]
  constructor
  · intro h
    apply BitVec.eq_of_getLsbD_eq
    intro i hi
    rw [BitVec.getLsbD_and, hmask ⟨i, hi⟩]
    by_cases h8 : 8 ≤ i
    · have hbit := congrArg (·.getLsbD (i - 8)) h
      have h24 : i - 8 < 24 := by omega
      simpa [h8, h24] using hbit
    · simp [h8]
  · intro h
    apply BitVec.eq_of_getLsbD_eq
    intro i hi
    have hbit := congrArg (·.getLsbD (8 + i)) h
    have h32 : 8 + i < 32 := by omega
    rw [BitVec.getLsbD_and, hmask ⟨8 + i, h32⟩] at hbit
    simpa [hi] using hbit

theorem representative_eq_iff {data p : Word} (hp : legalCommand p = true) : representative data = p ↔ data = p := by
  constructor
  · intro h
    have hd : legalCommand data = true := by rw [← legalCommand_representative, h, hp]
    rwa [representative, if_pos hd] at h
  · rintro rfl
    rw [representative, if_pos hp]

theorem match_representative {r : TableRow} (hr : r ∈ opcodeTable) (b : Bool) (widx : BitVec 5) (data : Word) :
    busWord b widx (representative data) &&& r.mask = r.pattern ↔ busWord b widx data &&& r.mask = r.pattern := by
  rw [match_row_iff, match_row_iff]
  obtain h | ⟨h, hp⟩ | ⟨h, hp⟩ := opcodeTable_tests_data r hr <;> rw [h]
  · rw [BitVec.and_zero, BitVec.and_zero]
  · rw [BitVec.and_allOnes, BitVec.and_allOnes, representative_eq_iff hp]
  · rw [hp, ← legalByte_iff_and, ← legalByte_iff_and, legalByte_representative]

theorem tableRowOf_representative (b : Bool) (widx : BitVec 5) (data : Word) :
    tableRowOf (busWord b widx (representative data)) = tableRowOf (busWord b widx data) := by
  refine List.find?_congr fun r hr => ?_
  rw [Bool.eq_iff_iff, beq_iff_eq, beq_iff_eq]
  exact match_representative hr b widx data

theorem mnemonic_decodeCommand {data : Word} (h : legalCommand data = false) :
    (decodeCommand data).mnemonic = "CMD.ILLEGAL" := by
  rw [decodeCommand_illegal h, Instr.mnemonic]

theorem mnemonic_decodePushB (data : Word) :
    (decodePushB data).mnemonic = if legalByte data then "PUSH.B" else "PUSH.B.ILLEGAL" := by
  unfold decodePushB
  split <;> rfl

theorem mnemonic_decodeCommand_representative (data : Word) :
    (decodeCommand (representative data)).mnemonic = (decodeCommand data).mnemonic := by
  obtain ⟨-, e⟩ | ⟨h, -⟩ | ⟨h, -⟩ := representative_cases data
  · rw [e]
  all_goals rw [mnemonic_decodeCommand h, mnemonic_decodeCommand (by rw [legalCommand_representative, h])]

theorem mnemonic_decodePushB_representative (data : Word) :
    (decodePushB (representative data)).mnemonic = (decodePushB data).mnemonic := by
  rw [mnemonic_decodePushB, mnemonic_decodePushB, legalByte_representative]

/-- Outside the CTRL and MSG_BYTE writes the mnemonic does not depend on DATA. -/
theorem mnemonic_decode_representative (b : Bool) (widx : BitVec 5) (data : Word) :
    (decode (busWord b widx (representative data))).mnemonic = (decode (busWord b widx data)).mnemonic := by
  simp only [decode_busWord, decodeWrite, decodeRead, apply_ite Instr.mnemonic,
    mnemonic_decodeCommand_representative, mnemonic_decodePushB_representative]
  simp only [Instr.mnemonic]

theorem representative_mem (data : Word) : representative data ∈ ([0, 1, 2, 3, 4, 0x100] : List Word) := by
  obtain ⟨h, e⟩ | ⟨-, -, e⟩ | ⟨-, -, e⟩ := representative_cases data <;> rw [e]
  · simp only [legalCommand, Bool.or_eq_true, beq_iff_eq] at h
    obtain ((rfl | rfl) | rfl) | rfl := h <;> decide
  · decide
  · decide

/-- The table against the decoder, for every W and WIDX and one DATA at a time. -/
theorem mnemonic_tableRowOf_representative : ∀ d ∈ ([0, 1, 2, 3, 4, 0x100] : List Word),
    ∀ (b : Bool) (widx : BitVec 5),
      (tableRowOf (busWord b widx d)).map TableRow.mnemonic = some (decode (busWord b widx d)).mnemonic := by
  intro d hd
  simp only [List.mem_cons, List.not_mem_nil, or_false] at hd
  obtain rfl | rfl | rfl | rfl | rfl | rfl := hd <;> decide

/-- Settles O2: the rows and the mnemonic see DATA only through its representative, and for the representatives the rows
are checked one by one. -/
theorem decoderFollowsTheOpcodeTable : Obligations.DecoderFollowsTheOpcodeTable := by
  intro w
  rw [← busWord_fields w, ← tableRowOf_representative, ← mnemonic_decode_representative]
  exact mnemonic_tableRowOf_representative _ (representative_mem _) _ _

/-- Settles O1: row by row, from the operation to its word and, along the decoder's branches, back. -/
theorem decodeAndEncodeAgree : Obligations.DecodeAndEncodeAgree :=
  ⟨fun _ _ => decode_encode, encodes_decode, encode_eq_none_iff⟩

end Sys2Proof
end

section
/-! PROOFS. The step of a bus operation, and what the Host's lines and accesses are to the core (30_encoding.md R110, R111;
20_memory.md R73, R74, R80). -/

namespace Sys2Proof.Machine

/-! ### The Host's lines and accesses -/

/-- The word of a push of one byte (R105). -/
theorem decode_byteWord (b : Byte) : decode (busWord true 3 (le32 b 0 0 0)) = .pushB b :=
  decode_encode (i := .pushB b) rfl rfl

/-- PUSHS is one PUSH.B for each byte, in order (R111). -/
theorem decode_pushs (text : List Byte) :
    ((expandPseudo (.pushs text)).filterMap hostLineWord).map decode = text.map .pushB := by
  induction text with
  | nil => rfl
  | cons b text ih =>
    rw [expandPseudo] at ih ⊢
    have hline : hostLineWord (pushbLine b) = some (busWord true 3 (le32 b 0 0 0)) := rfl
    rw [List.map_cons, List.filterMap_cons_some hline, List.map_cons, ih, decode_byteWord,
      List.map_cons]

theorem accessBytes_pos (size : AccessSize) : 0 < accessBytes size := by
  cases size <;> decide

theorem routeAccess_register (base : Nat) (widx : BitVec 5) (write : Bool) (data : Word) :
    routeAccess base ⟨registerAddress base widx, .word, write, data⟩ =
      some (.bus (busWord write widx (if write then data else 0))) := by
  have := widx.isLt
  have hin : ¬ (base + 4 * widx.toNat + 4 ≤ base ∨ base + 128 ≤ base + 4 * widx.toNat) := by omega
  have hport : (base + 4 * widx.toNat) % 4 = base % 4 ∧ base ≤ base + 4 * widx.toNat := by omega
  have hindex : (base + 4 * widx.toNat - base) / 4 = widx.toNat := by omega
  simp only [routeAccess, registerAddress, accessBytes, Config.windowBytes, if_neg hin, true_and, if_pos hport, hindex,
    BitVec.ofNat_toNat, BitVec.setWidth_eq]

theorem routeAccess_subword {base addr : Nat} {size : AccessSize} (hlow : base ≤ addr) (hhigh : addr < base + 128)
    (h : size ≠ .word ∨ addr % 4 ≠ base % 4) (write : Bool) (data : Word) :
    routeAccess base ⟨addr, size, write, data⟩ = some .subword := by
  have hpos := accessBytes_pos size
  have hin : ¬ (addr + accessBytes size ≤ base ∨ base + 128 ≤ addr) := by omega
  have hport : ¬ (size = .word ∧ addr % 4 = base % 4 ∧ base ≤ addr) := by tauto
  simp only [routeAccess, Config.windowBytes, if_neg hin, if_neg hport]

theorem routeAccess_outside {base addr : Nat} {size : AccessSize}
    (h : addr + accessBytes size ≤ base ∨ base + 128 ≤ addr) (write : Bool) (data : Word) :
    routeAccess base ⟨addr, size, write, data⟩ = none := by
  simp only [routeAccess, Config.windowBytes, if_pos h]

/-! ### A bus operation put on the port -/

theorem withFetchWord_busWord (s : State) (w : BusWord) : s.withFetchWord 38 w.toNat = putOnPort w s := by
  rw [State.withFetchWord, Nat.mod_eq_of_lt w.isLt, BitVec.ofNat_toNat, BitVec.setWidth_eq]

theorem step_putOnPort (w : BusWord) (s : State) : step (putOnPort w s) = exec (decode w) s :=
  step_event (putOnPort_events s w)

end Sys2Proof.Machine

namespace Sys2Proof

open Machine

/-- Settles O47: the lines of fixed words by evaluation, PUSHW by the fields of its word, PUSHS byte by byte. -/
theorem pseudoOperationsExpandToTheirOperations : Obligations.PseudoOperationsExpandToTheirOperations := by
  refine ⟨by decide, by decide, by decide, by decide, fun v => ?_, decode_pushs, fun _ => rfl, by decide, by decide,
    by decide⟩
  exact congrArg (· :: []) (decode_busWord true 2 v)

/-- Settles O46: the access routes of `routeAccess`, where a base that is a multiple of 128 makes an address misaligned
against the window exactly when it is misaligned. -/
theorem windowAccessesReachTheirRegisters : Obligations.WindowAccessesReachTheirRegisters := by
  intro base hbase
  refine ⟨routeAccess_register base, fun addr size write data hlow hhigh h => ?_,
    fun addr size write data h => routeAccess_outside h write data⟩
  have hbase4 : base % 4 = 0 := by omega
  exact routeAccess_subword hlow hhigh (by rwa [hbase4]) write data

/-- Settles O3: word by word, by evaluation. -/
theorem writtenOutWordsDecode : Obligations.WrittenOutWordsDecode := by
  unfold Obligations.WrittenOutWordsDecode
  decide

/-- Settles O4: the step takes the input at the head, and the word decodes to the operation it encodes. -/
theorem stepRunsTheDecodedOperation : Obligations.StepRunsTheDecodedOperation := by
  refine ⟨fun i w s rest hwf he hev => ?_, fun s w => ?_⟩
  · rw [← decode_encode hwf he]
    exact step_event hev
  · rw [withFetchWord_busWord, step_putOnPort]

end Sys2Proof
end

section
/-! PROOFS. The rules of the whole machine: which operations complete (60_exceptions.md section 2), what each operation
leaves alone (10_state.md, 20_memory.md section 4), and that neither the error record nor LENWRAP changes what an operation
does. -/

namespace Sys2Proof.Machine

variable {s s' t : State} {i : Instr}

/-! ### Operations and steps complete -/

theorem whenAbsorbing_completes {act : State → Result} (h : ∃ t, act s = .next t) :
    ∃ t, whenAbsorbing act s = .next t := by
  obtain ⟨-, e⟩ | ⟨-, e⟩ | ⟨-, e⟩ := whenAbsorbing_cases (act := act) s <;> rw [e]
  · exact ⟨_, rfl⟩
  · exact ⟨_, rfl⟩
  · exact h

theorem exec_completes (h : i.isEngineStep = false) (s : State) : ∃ t, exec i s = .next t := by
  cases i with
  | engRound | engCombine => cases h
  | cmdInit =>
    by_cases hp : s.phase = .compress
    · exact ⟨_, exec_cmdInit_busy hp⟩
    · exact ⟨_, exec_cmdInit hp⟩
  | cmdFinal =>
    rw [exec, execCmdFinal]
    exact whenAbsorbing_completes ⟨_, rfl⟩
  | pushB b =>
    rw [exec, execPushB]
    exact whenAbsorbing_completes ⟨_, rfl⟩
  | pushW b0 b1 b2 b3 =>
    rw [exec, execPushW]
    refine whenAbsorbing_completes ?_
    split <;> exact ⟨_, rfl⟩
  | _ => exact ⟨_, rfl⟩

theorem step_completes (s : State) : ∃ t, step s = .next t := by
  cases h : s.events with
  | nil =>
    rw [step_noEvent h]
    exact engineTurn_next s
  | cons ev rest =>
    rw [step_event h]
    cases ev with
    | bus w => exact exec_completes (decode_isEngineStep w) _
    | engineTurn => exact engineTurn_next _
    | resetInput | subword => exact ⟨_, rfl⟩

theorem exec_engRound_iff : (∃ t, exec .engRound s = .next t) ↔ s.phase = .compress ∧ s.rnd.val < 64 := by
  constructor
  · rintro ⟨t, ht⟩
    by_contra hno
    rw [exec, execEngRound_disabled hno] at ht
    cases ht
  · exact fun ⟨hp, hr⟩ => ⟨_, execEngRound_enabled hp hr⟩

theorem exec_engCombine_iff : (∃ t, exec .engCombine s = .next t) ↔ s.phase = .compress ∧ s.rnd.val = 64 := by
  constructor
  · rintro ⟨t, ht⟩
    by_contra hno
    rw [exec, execEngCombine_disabled hno] at ht
    cases ht
  · exact fun ⟨hp, hr⟩ => ⟨_, execEngCombine_enabled hp hr⟩

theorem exec_engineStep_stops (h : i.isEngineStep = true) (hstop : ∀ t, exec i s ≠ .next t) :
    exec i s = .fault .engineStepDisabled := by
  cases i with
  | engRound =>
    refine execEngRound_disabled fun he => ?_
    obtain ⟨t, ht⟩ := exec_engRound_iff.mpr he
    exact hstop t ht
  | engCombine =>
    refine execEngCombine_disabled fun he => ?_
    obtain ⟨t, ht⟩ := exec_engCombine_iff.mpr he
    exact hstop t ht
  | _ => cases h

/-! ### The turns of the Engine and the reset input -/

/-- With no input waiting, or one that leaves the turn to the Engine, a step is the Engine's turn (R71, R81). -/
theorem step_engineTurn {rest : List Event} (h : (s.events = [] ∧ rest = []) ∨ s.events = .engineTurn :: rest) :
    step s = engineTurn { s with events := rest } := by
  obtain ⟨hs, rfl⟩ | hs := h
  · rw [step_noEvent hs, ← hs]
  · exact step_event hs

theorem engineTurn_eq_exec_engRound (h : s.phase = .compress) (hr : s.rnd.val < 64) :
    engineTurn s = exec .engRound s :=
  (engineTurn_round h hr).trans (execEngRound_enabled h hr).symm

theorem engineTurn_eq_exec_engCombine (h : s.phase = .compress) (hr : s.rnd.val = 64) :
    engineTurn s = exec .engCombine s :=
  (engineTurn_combine h hr).trans (execEngCombine_enabled h hr).symm

theorem step_resetInput {rest : List Event} (h : s.events = .resetInput :: rest) :
    step s = .next (resetCore { s with events := rest }) := step_event h

/-! ### Reads -/

/-- The value of a read depends on A..D, on L, and for RD.STATUS on the STATUS word. -/
theorem exec_read_congr (h : i.isRead = true) (hacc : s.acc = s'.acc) (hlen : s.len = s'.len)
    (hstatus : (∃ data, i = .rdStatus data) → statusWord s = statusWord s') :
    ∃ v, exec i s = .next { s with readData := some v } ∧ exec i s' = .next { s' with readData := some v } := by
  cases i with
  | rdStatus data => exact ⟨statusWord s, rfl, by rw [hstatus ⟨data, rfl⟩, exec_rdStatus]⟩
  | rdDigest sel data => exact ⟨digestWord s.acc sel, rfl, by rw [hacc, exec_rdDigest]⟩
  | rdHex sel data => exact ⟨hexWord s.acc sel, rfl, by rw [hacc, exec_rdHex]⟩
  | rdLenLo data => exact ⟨lenLow s.len, rfl, by rw [hlen, exec_rdLenLo]⟩
  | rdLenHi data => exact ⟨lenHigh s.len, rfl, by rw [hlen, exec_rdLenHi]⟩
  | rdCtrl | rdMsgWord | rdMsgByte | rdRsvd10 | rdRsvd12 | rdRsvd24 => exact ⟨0, rfl, rfl⟩
  | _ => cases h

theorem statusWord_congr (hbcount : s.bcount = s'.bcount) (hwrap : s.lenwrap = s'.lenwrap) (hphase : s.phase = s'.phase)
    (herr : s.err = s'.err) (hcode : s.errcode = s'.errcode) : statusWord s = statusWord s' := by
  simp only [statusWord, busyBit, doneBit, hbcount, hwrap, hphase, herr, hcode]

/-! ### What a push and FINAL do to PHASE -/

theorem acceptBytes_phase (bytes : List Byte) (s : State) :
    (acceptBytes bytes s).phase = if s.bcount.toNat + bytes.length = 64 then .compress else s.phase := by
  unfold acceptBytes
  dsimp only
  split <;> rfl

@[simp] theorem finalPadding_phase (s : State) : (finalPadding s).phase = .compress := by
  unfold finalPadding
  dsimp only
  split <;> rfl

/-! ### The boundary fields -/

theorem exec_events (h : exec i s = .next t) : t.events = s.events := by
  obtain ⟨c, -, rfl, -⟩ | ⟨v, -, rfl⟩ | ⟨-, -, rfl⟩ | ⟨-, -, rfl⟩ | ⟨-, rfl⟩ | ⟨-, rfl⟩ |
    ⟨b0, b1, b2, b3, -, -, -, rfl⟩ | ⟨b, -, -, rfl⟩ | ⟨_, _, -, rfl⟩ | ⟨-, -, -, rfl⟩ := exec_next_cases h <;> simp

theorem exec_readData (h : exec i s = .next t) (hread : i.isRead = false) : t.readData = s.readData := by
  obtain ⟨c, -, rfl, -⟩ | ⟨v, hno, -⟩ | ⟨-, -, rfl⟩ | ⟨-, -, rfl⟩ | ⟨-, rfl⟩ | ⟨-, rfl⟩ |
    ⟨b0, b1, b2, b3, -, -, -, rfl⟩ | ⟨b, -, -, rfl⟩ | ⟨_, _, -, rfl⟩ | ⟨-, -, -, rfl⟩ := exec_next_cases h
  · rfl
  · simp [hread] at hno
  all_goals simp

/-! ### The error record and LENWRAP change nothing else -/

/-- `t'` is `t` but for the error record, LENWRAP and what the Host was told; a flag that was the same in `s'` as in `s` is
the same in `t'` as in `t`. -/
structure SameButFlags (s s' t t' : State) : Prop where
  rest : { t' with err := t.err, errcode := t.errcode, lenwrap := t.lenwrap, readData := t.readData } = t
  record : s'.err = s.err → s'.errcode = s.errcode → t'.err = t.err ∧ t'.errcode = t.errcode
  wrap : s'.lenwrap = s.lenwrap → t'.lenwrap = t.lenwrap

/-- `s` with another error record and another LENWRAP. -/
def setFlags (s : State) (e : Bool) (c : ErrCode) (b : Bool) : State :=
  { s with err := e, errcode := c, lenwrap := b }

section
variable (e b : Bool) (c : ErrCode)

/-- An effect on `s` and the one on `s` with other flags differ in the flags only; `q` says whether the Host is told the
same. -/
def SameEffect (s : State) (q : Prop) (r r' : Result) : Prop :=
  ∀ t, r = .next t → ∃ t', r' = .next t' ∧ SameButFlags s (setFlags s e c b) t t' ∧ (q → t'.readData = t.readData)

variable {e b c} {q : Prop}

theorem SameEffect.next (h : SameButFlags s (setFlags s e c b) t s') (hread : q → s'.readData = t.readData) :
    SameEffect e b c s q (.next t) (.next s') := by
  rintro _ ⟨⟩
  exact ⟨s', rfl, h, hread⟩

theorem sameEffect_raiseError (k : ErrCode) :
    SameEffect e b c s q (raiseError k s) (raiseError k (setFlags s e c b)) := by
  refine .next ⟨rfl, fun herr hcode => ⟨rfl, ?_⟩, id⟩ fun _ => rfl
  rw [recordError_errcode, recordError_errcode, herr, hcode]

theorem sameEffect_whenAbsorbing {act : State → Result} (h : SameEffect e b c s q (act s) (act (setFlags s e c b))) :
    SameEffect e b c s q (whenAbsorbing act s) (whenAbsorbing act (setFlags s e c b)) := by
  cases hp : s.phase with
  | idle =>
    rw [whenAbsorbing_idle hp, whenAbsorbing_idle (s := setFlags s e c b) hp]
    exact sameEffect_raiseError .state
  | absorb =>
    rw [whenAbsorbing_absorb hp, whenAbsorbing_absorb (s := setFlags s e c b) hp]
    exact h
  | compress =>
    rw [whenAbsorbing_compress hp, whenAbsorbing_compress (s := setFlags s e c b) hp]
    exact sameEffect_raiseError .busy
  | done =>
    rw [whenAbsorbing_done hp, whenAbsorbing_done (s := setFlags s e c b) hp]
    exact sameEffect_raiseError .state

theorem sameEffect_acceptBytes (bytes : List Byte) :
    SameEffect e b c s q (.next (acceptBytes bytes s)) (.next (acceptBytes bytes (setFlags s e c b))) := by
  refine .next ⟨?_, fun herr hcode => by simp [herr, hcode], fun hwrap => ?_⟩ fun _ => by simp [setFlags]
  · by_cases hfull : s.bcount.toNat + bytes.length = 64
    · rw [acceptBytes_full hfull, acceptBytes_full (s := setFlags s e c b) hfull]
      rfl
    · rw [acceptBytes_partial hfull, acceptBytes_partial (s := setFlags s e c b) hfull]
      rfl
  · rw [acceptBytes_lenwrap, acceptBytes_lenwrap, hwrap]
    rfl

/-- An effect that leaves the flags alone and commutes with a change of them. -/
theorem SameEffect.setFlags (herr : t.err = s.err) (hcode : t.errcode = s.errcode) (hwrap : t.lenwrap = s.lenwrap) :
    SameEffect e b c s q (.next t) (.next (setFlags t e c b)) := by
  refine .next ⟨rfl, fun he hc => ?_, fun hb => hb.trans hwrap.symm⟩ fun _ => rfl
  rw [herr, hcode]
  exact ⟨he, hc⟩

theorem finalPadding_setFlags (s : State) : finalPadding (setFlags s e c b) = setFlags (finalPadding s) e c b := by
  by_cases hshort : s.bcount.toNat ≤ 55
  · rw [finalPadding_short hshort, finalPadding_short (s := setFlags s e c b) hshort]
    rfl
  · have hlong : 56 ≤ s.bcount.toNat := by omega
    rw [finalPadding_long hlong, finalPadding_long (s := setFlags s e c b) hlong]
    rfl

theorem afterCombine_setFlags (s : State) : afterCombine (setFlags s e c b) = setFlags (afterCombine s) e c b := by
  obtain hn | hn | hn := next_cases s
  · rw [afterCombine_absorb hn, afterCombine_absorb (s := setFlags s e c b) hn]
    rfl
  · rw [afterCombine_done hn, afterCombine_done (s := setFlags s e c b) hn]
    rfl
  · rw [afterCombine_pad2 hn, afterCombine_pad2 (s := setFlags s e c b) hn]
    rfl

theorem sameEffect_cmdFinal : SameEffect e b c s q (execCmdFinal s) (execCmdFinal (setFlags s e c b)) := by
  refine sameEffect_whenAbsorbing ?_
  rw [finalPadding_setFlags]
  exact .setFlags (finalPadding_err s) (finalPadding_errcode s) (finalPadding_lenwrap s)

theorem sameEffect_engRound : SameEffect e b c s q (execEngRound s) (execEngRound (setFlags s e c b)) := by
  by_cases h : s.phase = .compress ∧ s.rnd.val < 64
  · rw [execEngRound_enabled h.1 h.2, execEngRound_enabled (s := setFlags s e c b) h.1 h.2]
    exact .setFlags rfl rfl rfl
  · rw [execEngRound_disabled h]
    exact nofun

theorem sameEffect_engCombine : SameEffect e b c s q (execEngCombine s) (execEngCombine (setFlags s e c b)) := by
  by_cases h : s.phase = .compress ∧ s.rnd.val = 64
  · rw [execEngCombine_enabled h.1 h.2, execEngCombine_enabled (s := setFlags s e c b) h.1 h.2]
    have hcomm := afterCombine_setFlags (e := e) (b := b) (c := c) { s with acc := addQuad s.acc s.work, rnd := 0 }
    exact (congrArg (SameEffect e b c s q _ <| .next ·) hcomm).mpr (.setFlags (by simp) (by simp) (by simp))
  · rw [execEngCombine_disabled h]
    exact nofun

/-- Every operation does the same whatever the flags are, and every read but RD.STATUS gives the same value. -/
theorem sameEffect_exec (i : Instr) :
    SameEffect e b c s (∀ data, i ≠ .rdStatus data) (exec i s) (exec i (setFlags s e c b)) := by
  cases i with
  | cmdInit =>
    by_cases hp : s.phase = .compress
    · rw [exec_cmdInit_busy hp, exec_cmdInit_busy (s := setFlags s e c b) hp]
      exact sameEffect_raiseError .busy
    · rw [exec_cmdInit hp, exec_cmdInit (s := setFlags s e c b) hp]
      exact .next ⟨rfl, fun herr hcode => ⟨herr, hcode⟩, fun _ => rfl⟩ fun _ => rfl
  | cmdFinal => exact sameEffect_cmdFinal
  | cmdClrErr => exact .next ⟨rfl, fun _ _ => ⟨rfl, rfl⟩, id⟩ fun _ => rfl
  | cmdSreset => exact .next ⟨rfl, fun _ _ => ⟨rfl, rfl⟩, fun _ => rfl⟩ fun _ => rfl
  | pushW b0 b1 b2 b3 =>
    refine sameEffect_whenAbsorbing (act := fun t => if t.bcount.toNat % 4 ≠ 0 then raiseError .align t
          else .next (acceptBytes [b0, b1, b2, b3] t)) ?_
    by_cases h4 : s.bcount.toNat % 4 ≠ 0
    · rw [if_pos h4, if_pos (c := (setFlags s e c b).bcount.toNat % 4 ≠ 0) h4]
      exact sameEffect_raiseError .align
    · rw [if_neg h4, if_neg (c := (setFlags s e c b).bcount.toNat % 4 ≠ 0) h4]
      exact sameEffect_acceptBytes _
  | pushB b =>
    exact sameEffect_whenAbsorbing (act := fun t => .next (acceptBytes [b] t)) (sameEffect_acceptBytes _)
  | cmdIllegal | pushBIllegal | wrStatus | wrDigest | wrLen | wrRsvd10 | wrRsvd12 | wrHex | wrRsvd24 =>
    exact sameEffect_raiseError _
  | engRound => exact sameEffect_engRound
  | engCombine => exact sameEffect_engCombine
  | rdStatus data => exact .next ⟨rfl, fun herr hcode => ⟨herr, hcode⟩, id⟩ fun h => absurd rfl (h data)
  | _ => exact .next ⟨rfl, fun herr hcode => ⟨herr, hcode⟩, id⟩ fun _ => rfl

end

/-! ### Who writes the error record, LENWRAP and PHASE -/

theorem exec_record (h : exec i s = .next t) (herr : s.err = true) (hclr : i ≠ .cmdClrErr) (hreset : i ≠ .cmdSreset) :
    t.err = true ∧ t.errcode = s.errcode := by
  obtain ⟨c, -, rfl, -⟩ | ⟨v, -, rfl⟩ | ⟨-, -, rfl⟩ | ⟨-, -, rfl⟩ | ⟨rfl, -⟩ | ⟨rfl, -⟩ |
    ⟨b0, b1, b2, b3, -, -, -, rfl⟩ | ⟨b, -, -, rfl⟩ | ⟨_, _, -, rfl⟩ | ⟨-, -, -, rfl⟩ := exec_next_cases h
  · exact ⟨rfl, if_pos herr⟩
  · exact ⟨herr, rfl⟩
  · exact ⟨herr, rfl⟩
  · simp [herr]
  · exact absurd rfl hclr
  · exact absurd rfl hreset
  all_goals simp [herr]

/-- LENWRAP becomes 1 only by a push whose bits carry out of L (R143). -/
theorem exec_sets_lenwrap (h : exec i s = .next t) (h0 : s.lenwrap = false) (h1 : t.lenwrap = true) :
    s.phase = .absorb ∧
      ((∃ b, i = .pushB b ∧ 2 ^ 64 ≤ s.len.toNat + 8) ∨
       (∃ b0 b1 b2 b3, i = .pushW b0 b1 b2 b3 ∧ s.bcount.toNat % 4 = 0 ∧ 2 ^ 64 ≤ s.len.toNat + 32)) := by
  have carry {bytes : List Byte} (hb : (acceptBytes bytes s).lenwrap = true) : 2 ^ 64 ≤ s.len.toNat + 8 * bytes.length :=
    ((acceptBytes_lenwrap_iff bytes s).mp hb).resolve_left (by simp [h0])
  obtain ⟨c, -, rfl, -⟩ | ⟨v, -, rfl⟩ | ⟨-, -, rfl⟩ | ⟨-, -, rfl⟩ | ⟨-, rfl⟩ | ⟨-, rfl⟩ |
    ⟨b0, b1, b2, b3, rfl, hp, h4, rfl⟩ | ⟨b, rfl, hp, rfl⟩ | ⟨_, _, -, rfl⟩ | ⟨-, -, -, rfl⟩ := exec_next_cases h
  iterate 6 · simp [h0] at h1
  · exact ⟨hp, .inr ⟨b0, b1, b2, b3, rfl, h4, carry h1⟩⟩
  · exact ⟨hp, .inl ⟨b, rfl, carry h1⟩⟩
  all_goals simp [h0] at h1

theorem exec_clears_lenwrap (h : exec i s = .next t) (h1 : s.lenwrap = true) (h0 : t.lenwrap = false) :
    i = .cmdInit ∨ i = .cmdSreset := by
  obtain ⟨c, -, rfl, -⟩ | ⟨v, -, rfl⟩ | ⟨rfl, -, -⟩ | ⟨-, -, rfl⟩ | ⟨-, rfl⟩ | ⟨rfl, -⟩ |
    ⟨b0, b1, b2, b3, -, -, -, rfl⟩ | ⟨b, -, -, rfl⟩ | ⟨_, _, -, rfl⟩ | ⟨-, -, -, rfl⟩ := exec_next_cases h
  iterate 2 · simp [h1] at h0
  · exact .inl rfl
  iterate 2 · simp [h1] at h0
  · exact .inr rfl
  all_goals simp [h1] at h0

theorem acceptBytes_changes_phase {bytes : List Byte} (h : (acceptBytes bytes s).phase ≠ s.phase) :
    s.bcount.toNat + bytes.length = 64 ∧ (acceptBytes bytes s).phase = .compress := by
  rw [acceptBytes_phase] at h ⊢
  split at h
  · exact ⟨‹_›, if_pos ‹_›⟩
  · exact absurd rfl h

end Sys2Proof.Machine

namespace Sys2Proof

open Machine

/-- Settles O6: every input completes, a bus operation because its word is never an Engine step. -/
theorem everyStepCompletes : Obligations.EveryStepCompletes :=
  fun s => ⟨step_completes s, fun _ => step_subword⟩

/-- Settles O7: a bus operation answers a state or the error record; an Engine step runs exactly where it is enabled. -/
theorem operationsStopOnlyOnDisabledEngineSteps : Obligations.OperationsStopOnlyOnDisabledEngineSteps :=
  fun s => ⟨fun _ h => exec_completes h s, exec_engRound_iff, exec_engCombine_iff, fun _ => exec_engineStep_stops⟩

/-- Settles O5: the step is the Engine's turn, which takes the enabled step. -/
theorem engineTurnTakesTheEnabledStep : Obligations.EngineTurnTakesTheEnabledStep := by
  intro s rest h
  rw [step_engineTurn h]
  exact ⟨fun hp hr => engineTurn_eq_exec_engRound hp hr, fun hp hr => engineTurn_eq_exec_engCombine hp hr,
    fun hp => engineTurn_idle hp⟩

/-- Settles O48: both are `resetCore`, whose fields are the reset values. -/
theorem resetInputDoesWhatSresetDoes : Obligations.ResetInputDoesWhatSresetDoes := by
  intro s rest h
  rw [exec_cmdSreset]
  refine ⟨step_resetInput h, _, step_resetInput h, ?_⟩
  simp

/-- Settles O23: the value depends on the core alone, which the read leaves as it is. -/
theorem readsHaveNoSideEffects : Obligations.ReadsHaveNoSideEffects := by
  intro i s h
  obtain ⟨v, hv⟩ := exec_read h s
  obtain ⟨v', hv', hagain⟩ := exec_read_congr (s := s) (s' := { s with readData := some v }) h rfl rfl fun _ => rfl
  obtain rfl : v = v' := by simpa [hv] using hv'
  exact ⟨v, hv, hagain⟩

/-- Settles O24: the fields that the hypotheses equate are all that a read looks at. -/
theorem readsRevealNoHiddenState : Obligations.ReadsRevealNoHiddenState := by
  intro i s s' t t' h hacc hbcount hlen hwrap hphase herr hcode ht ht'
  obtain ⟨v, hv, hv'⟩ := exec_read_congr h hacc hlen fun _ => statusWord_congr hbcount hwrap hphase herr hcode
  rw [hv, Host.Outcome.next.injEq] at ht
  rw [hv', Host.Outcome.next.injEq] at ht'
  rw [← ht, ← ht']

/-- Settles O8: by the effects an operation can have; a read answers a value. -/
theorem onlyReadsAnswerTheHost : Obligations.OnlyReadsAnswerTheHost := by
  intro i s t h
  refine ⟨exec_events h, exec_readData h, fun hread => ?_⟩
  obtain ⟨v, hv⟩ := exec_read hread s
  rw [hv, Host.Outcome.next.injEq] at h
  simp [← h]

/-- Settles O30: every other effect keeps the accumulator. -/
theorem accumulatorWrittenOnlyByInitCombineSreset : Obligations.AccumulatorWrittenOnlyByInitCombineSreset := by
  intro i s t h hacc
  obtain ⟨c, -, rfl, -⟩ | ⟨v, -, rfl⟩ | ⟨rfl, -, -⟩ | ⟨-, -, rfl⟩ | ⟨-, rfl⟩ | ⟨rfl, -⟩ |
    ⟨b0, b1, b2, b3, -, -, -, rfl⟩ | ⟨b, -, -, rfl⟩ | ⟨_, _, -, rfl⟩ | ⟨rfl, hp, -, -⟩ := exec_next_cases h
  · exact absurd rfl hacc
  · exact absurd rfl hacc
  · exact .inl rfl
  · exact absurd (finalPadding_acc s) hacc
  · exact absurd rfl hacc
  · exact .inr (.inl rfl)
  · exact absurd (acceptBytes_acc s _) hacc
  · exact absurd (acceptBytes_acc s _) hacc
  · exact absurd rfl hacc
  · exact .inr (.inr ⟨rfl, hp⟩)

/-- Settles O31: only CLRERR and SRESET write a set record, and `sameEffect_exec` says that the record changes nothing
else. -/
theorem errorRecordIsStickyAndBlocksNothing : Obligations.ErrorRecordIsStickyAndBlocksNothing := by
  refine ⟨fun _ _ _ => exec_record, fun i s t e c h => ?_, fun s => ⟨_, exec_cmdClrErr s, rfl, rfl⟩,
    fun s => ⟨_, exec_cmdSreset s, rfl, rfl⟩, fun s rest h => ⟨_, step_resetInput h, rfl, rfl⟩⟩
  obtain ⟨t', ht', hsame, hread⟩ := sameEffect_exec (e := e) (c := c) (b := s.lenwrap) i t h
  refine ⟨t', ht', ?_, hread⟩
  have hrest := hsame.rest
  rw [← hsame.wrap rfl] at hrest
  exact hrest

/-- Settles O32: a push that carries is the only effect that sets LENWRAP, INIT and SRESET are the only ones that clear it,
and `sameEffect_exec` says that it changes nothing else. -/
theorem lengthWrapIsStickyAndStopsNothing : Obligations.LengthWrapIsStickyAndStopsNothing := by
  refine ⟨rfl, fun i s t h h0 => ⟨exec_sets_lenwrap h h0, ?_⟩, fun _ _ _ => exec_clears_lenwrap, fun i s t b h => ?_,
    fun s hp => ⟨_, exec_cmdInit hp, rfl⟩, fun s => ⟨_, exec_cmdSreset s, rfl⟩,
    fun s rest h => ⟨_, step_resetInput h, rfl⟩⟩
  · rintro ⟨hp, ⟨b, rfl, hcarry⟩ | ⟨b0, b1, b2, b3, rfl, h4, hcarry⟩⟩
    · rw [exec_pushB b hp, Host.Outcome.next.injEq] at h
      rw [← h]
      exact (acceptBytes_lenwrap_iff _ s).mpr (.inr hcarry)
    · rw [exec_pushW b0 b1 b2 b3 hp h4, Host.Outcome.next.injEq] at h
      rw [← h]
      exact (acceptBytes_lenwrap_iff _ s).mpr (.inr hcarry)
  · obtain ⟨t', ht', hsame, hread⟩ := sameEffect_exec (e := s.err) (c := s.errcode) (b := b) i t h
    refine ⟨t', ht', ?_, hread⟩
    obtain ⟨herr, hcode⟩ := hsame.record rfl rfl
    have hrest := hsame.rest
    rw [← herr, ← hcode] at hrest
    exact hrest

/-- Settles O33: every other effect keeps PHASE, and a push changes it only by filling the block. -/
theorem phaseChangesOnlyAsTheSequencerSays : Obligations.PhaseChangesOnlyAsTheSequencerSays := by
  intro i s t h hphase
  obtain ⟨c, -, rfl, -⟩ | ⟨v, -, rfl⟩ | ⟨rfl, hp, rfl⟩ | ⟨rfl, hp, rfl⟩ | ⟨-, rfl⟩ | ⟨rfl, rfl⟩ |
    ⟨b0, b1, b2, b3, rfl, hp, -, rfl⟩ | ⟨b, rfl, hp, rfl⟩ | ⟨_, _, -, rfl⟩ | ⟨rfl, hp, hr, rfl⟩ := exec_next_cases h
  · exact absurd rfl hphase
  · exact absurd rfl hphase
  · exact .inl ⟨rfl, hp, rfl⟩
  · exact .inr (.inr (.inl ⟨.inr (.inr rfl), hp, finalPadding_phase s⟩))
  · exact absurd rfl hphase
  · exact .inr (.inl ⟨rfl, rfl⟩)
  · obtain ⟨hfull, hcompress⟩ := acceptBytes_changes_phase hphase
    exact .inr (.inr (.inl ⟨.inr (.inl ⟨b0, b1, b2, b3, rfl, Nat.add_right_cancel (m := 4) hfull⟩), hp, hcompress⟩))
  · obtain ⟨hfull, hcompress⟩ := acceptBytes_changes_phase hphase
    exact .inr (.inr (.inl ⟨.inl ⟨b, rfl, Nat.add_right_cancel (m := 1) hfull⟩, hp, hcompress⟩))
  · exact absurd rfl hphase
  · obtain ⟨hn, e⟩ | ⟨hn, e⟩ | ⟨-, e⟩ := combine_cases s <;> rw [e] at hphase ⊢
    · exact .inr (.inr (.inr ⟨rfl, hp, hr, .inl ⟨hn, rfl⟩⟩))
    · exact .inr (.inr (.inr ⟨rfl, hp, hr, .inr ⟨hn, rfl⟩⟩))
    · exact absurd hp.symm hphase

/-- Settles O34: in COMPRESS no operation but SRESET has an effect besides the error record and a read's value. -/
theorem onlySresetDisturbsARunningBlock : Obligations.OnlySresetDisturbsARunningBlock := by
  intro i s t hp heng hreset h
  obtain ⟨c, -, rfl, -⟩ | ⟨v, -, rfl⟩ | ⟨-, hno, -⟩ | ⟨-, hno, -⟩ | ⟨-, rfl⟩ | ⟨rfl, -⟩ |
    ⟨b0, b1, b2, b3, -, hno, -⟩ | ⟨b, -, hno, -⟩ | ⟨_, _, rfl, -⟩ | ⟨rfl, -⟩ := exec_next_cases h
  · rfl
  · rfl
  · exact absurd hp hno
  · cases hp.symm.trans hno
  · rfl
  · exact absurd rfl hreset
  · cases hp.symm.trans hno
  · cases hp.symm.trans hno
  · cases heng
  · cases heng

/-- Settles O13: each read answers the value of a register that holds its reset value. -/
theorem registersReadZeroAfterReset : Obligations.RegistersReadZeroAfterReset := by
  have hdigest : ∀ sel, digestWord State.reset.acc sel = 0 := by decide
  have hhex : ∀ sel, hexWord State.reset.acc sel = 0x30303030 := by decide
  refine ⟨fun data => ⟨_, exec_rdStatus data _, by decide⟩, fun sel data => ⟨_, exec_rdDigest sel data _, ?_⟩,
    fun data => ⟨_, exec_rdLenLo data _, by decide⟩, fun data => ⟨_, exec_rdLenHi data _, by decide⟩,
    fun sel data => ⟨_, exec_rdHex sel data _, ?_⟩, rfl⟩
  · exact congrArg some (hdigest sel)
  · exact congrArg some (hhex sel)

end Sys2Proof
end

section
/-! PROOFS. Runs of the Engine (42_compressor.md section 3): how many steps a block still needs, that its 65 steps compute
`compress`, that no block outlives the inputs for long, and the race of a push with the combine step (60_exceptions.md
section 2). -/

namespace Sys2Proof.Machine

variable {s t : State}

/-! ### The steps a block still needs -/

theorem engineStepsLeft_compress (h : s.phase = .compress) :
    engineStepsLeft s = 65 - s.rnd.val + if s.next = .pad2 then 65 else 0 := if_pos h

theorem engineStepsLeft_idle (h : s.phase ≠ .compress) : engineStepsLeft s = 0 := if_neg h

theorem engineStepsLeft_pos_iff : 0 < engineStepsLeft s ↔ s.phase = .compress := by
  constructor
  · intro hpos
    by_contra hp
    rw [engineStepsLeft_idle hp] at hpos
    exact Nat.lt_irrefl 0 hpos
  · intro hp
    have := s.rnd.isLt
    rw [engineStepsLeft_compress hp]
    omega

theorem engineStepsLeft_le (s : State) : engineStepsLeft s ≤ 130 := by
  by_cases hp : s.phase = .compress
  · rw [engineStepsLeft_compress hp]
    split <;> omega
  · rw [engineStepsLeft_idle hp]
    omega

/-- Every turn of the Engine brings the end of the block one step nearer (R204). -/
theorem engineStepsLeft_engineTurn (h : engineTurn s = .next t) : engineStepsLeft t = engineStepsLeft s - 1 := by
  obtain ⟨hp, e⟩ | ⟨hp, hr, e⟩ | ⟨hp, hr, e⟩ := engineTurn_cases s <;> rw [e, Host.Outcome.next.injEq] at h
  · rw [← h, engineStepsLeft_idle hp]
  · have ht : t.phase = .compress := by rw [← h, hp]
    rw [engineStepsLeft_compress hp, engineStepsLeft_compress ht, ← h]
    dsimp only
    omega
  · rw [← h, engineStepsLeft_compress hp, hr]
    obtain ⟨hn, e⟩ | ⟨hn, e⟩ | ⟨hn, e⟩ := combine_cases s <;> rw [e, hn]
    · rfl
    · rfl
    · rw [engineStepsLeft_startCompress]
      rfl

theorem engineStepsLeft_engineTurns (k : Nat) (s : State) : engineStepsLeft (engineTurns k s) = engineStepsLeft s - k := by
  induction k generalizing s with
  | zero => rfl
  | succ k ih =>
    obtain ⟨t, ht⟩ := engineTurn_next s
    rw [engineTurns_succ ht, ih, engineStepsLeft_engineTurn ht, Nat.sub_sub, Nat.add_comm 1 k]

theorem engineTurns_phase_iff (k : Nat) (s : State) :
    (engineTurns k s).phase = .compress ↔ k < engineStepsLeft s := by
  rw [← engineStepsLeft_pos_iff, engineStepsLeft_engineTurns, Nat.sub_pos_iff_lt]

/-! ### Steps without and with inputs -/

theorem engineTurn_events (h : engineTurn s = .next t) : t.events = s.events := by
  obtain ⟨-, e⟩ | ⟨_, _, e⟩ | ⟨-, -, e⟩ := engineTurn_cases s <;> rw [e, Host.Outcome.next.injEq] at h <;> simp [← h]

/-- With no input waiting every step is the Engine's (R81). -/
theorem run_noEvent (k : Nat) (h : s.events = []) :
    runSteps k s = .next (engineTurns k s) ∧ (engineTurns k s).events = [] := by
  induction k generalizing s with
  | zero => exact ⟨rfl, h⟩
  | succ k ih =>
    obtain ⟨t, ht⟩ := engineTurn_next s
    rw [runSteps_succ ((step_noEvent h).trans ht), engineTurns_succ ht]
    exact ih ((engineTurn_events ht).trans h)

/-- A step takes the oldest input, whatever it is (R80). -/
theorem step_takes_event {ev : Event} {rest : List Event} (h : s.events = ev :: rest) :
    ∃ t, step s = .next t ∧ t.events = rest := by
  obtain ⟨t, ht⟩ := step_completes s
  refine ⟨t, ht, ?_⟩
  rw [step_event h] at ht
  cases ev with
  | bus w => exact exec_events (s := { s with events := rest }) ht
  | engineTurn => exact engineTurn_events (s := { s with events := rest }) ht
  | resetInput | subword =>
    cases ht
    rfl

theorem run_takes_events {evs : List Event} (h : s.events = evs) :
    ∃ t, runSteps evs.length s = .next t ∧ t.events = [] := by
  induction evs generalizing s with
  | nil => exact ⟨s, rfl, h⟩
  | cons ev rest ih =>
    obtain ⟨u, hu, hrest⟩ := step_takes_event h
    obtain ⟨t, ht, hev⟩ := ih hrest
    exact ⟨t, (runSteps_succ hu).trans ht, hev⟩

/-! ### The 65 steps of a block -/

/-- The Engine's turns before the combine are rounds (R201). -/
theorem engineTurns_rounds (hp : s.phase = .compress) {k : Nat} (hk : s.rnd.val + k ≤ 64) :
    ∃ w, engineTurns k s = { s with work := w, rnd := ⟨s.rnd.val + k, by omega⟩ } ∧
      (s.work = rounds s.rnd.val s.acc s.buf.block → w = rounds (s.rnd.val + k) s.acc s.buf.block) := by
  induction k with
  | zero => exact ⟨s.work, rfl, id⟩
  | succ k ih =>
    obtain ⟨w, hw, hrounds⟩ := ih (by omega)
    refine ⟨round (s.rnd.val + k) w s.buf.block, ?_, fun h => congrArg (round _ · _) (hrounds h)⟩
    rw [engineTurns_add k 1, hw]
    have hlt : s.rnd.val + k < 64 := hk
    exact engineTurns_succ (engineTurn_round (s := { s with work := w, rnd := ⟨s.rnd.val + k, _⟩ }) hp hlt)

/-- The 65 turns of a block are its rounds and the combine step (R187, R203). -/
theorem engineTurns_block (hp : s.phase = .compress) (hr : s.rnd = 0) (hw : s.work = s.acc) :
    engineTurns 65 s = afterCombine
      { s with acc := compress s.acc s.buf.block, work := rounds 64 s.acc s.buf.block, rnd := 0 } := by
  have hr0 : s.rnd.val = 0 := by rw [hr]; rfl
  obtain ⟨w, hturns, hrounds⟩ := engineTurns_rounds (k := 64) hp (by omega)
  rw [hr0] at hrounds
  obtain rfl := hrounds hw
  rw [engineTurns_add 64 1, hturns]
  exact engineTurns_succ (engineTurn_combine (s := { s with work := _, rnd := ⟨s.rnd.val + 64, _⟩ }) hp (by simp [hr0]))

theorem engineTurns_startCompress (nx : Next) (s : State) :
    engineTurns 65 (startCompress nx s) = afterCombine { startCompress nx s with
      acc := compress s.acc s.buf.block, work := rounds 64 s.acc s.buf.block, rnd := 0 } :=
  engineTurns_block rfl rfl rfl

/-! ### A byte pushed, and the combine step of a block that a push started -/

section
variable {rest : List Event} {b : Byte}

theorem step_byte (h : s.events = .bus (busWord true 3 (le32 b 0 0 0)) :: rest) :
    step s = exec (.pushB b) { s with events := rest } := by
  rw [step_event h, takeEvent, decode_byteWord]

theorem step_byte_refused (h : s.events = .bus (busWord true 3 (le32 b 0 0 0)) :: rest) (hp : s.phase = .compress) :
    step s = .next (recordError .busy { s with events := rest }) :=
  (step_byte h).trans (exec_pushB_busy (s := { s with events := rest }) b hp)

theorem step_byte_accepted (h : s.events = .bus (busWord true 3 (le32 b 0 0 0)) :: rest) (hp : s.phase = .absorb) :
    step s = .next (acceptBytes [b] { s with events := rest }) :=
  (step_byte h).trans (exec_pushB (s := { s with events := rest }) b hp)

theorem step_combine_absorb (h : s.events = .engineTurn :: rest) (hp : s.phase = .compress) (hr : s.rnd.val = 64)
    (hn : s.next = .absorb) :
    step s = .next { s with acc := addQuad s.acc s.work, rnd := 0, phase := .absorb, events := rest } := by
  rw [step_engineTurn (.inr h), engineTurn_combine (s := { s with events := rest }) hp hr]
  exact congrArg _ (afterCombine_absorb hn)

end

theorem runSteps_two {u : State} (h : step s = .next u) (h' : step u = .next t) : runSteps 2 s = .next t :=
  (runSteps_succ h).trans (runSteps_succ h')

end Sys2Proof.Machine

namespace Sys2Proof

open Machine

/-- Settles O28: each turn takes one from `engineStepsLeft`, and a block runs exactly while it is positive. -/
theorem engineStepsLeftCountsTheStepsUntilIdle : Obligations.EngineStepsLeftCountsTheStepsUntilIdle := by
  intro s hev _
  refine ⟨engineStepsLeft_le s, ⟨_, (run_noEvent _ hev).1, ?_⟩, fun k hk => ⟨_, (run_noEvent k hev).1, ?_⟩⟩
  · rw [Ne, engineTurns_phase_iff]
    exact Nat.lt_irrefl _
  · rwa [engineTurns_phase_iff]

/-- Settles O29: one step for each input, then the Engine's steps of the block that still runs. -/
theorem noBlockRunsOnceTheInputsEnd : Obligations.NoBlockRunsOnceTheInputsEnd := by
  intro s
  obtain ⟨u, hu, hev⟩ := run_takes_events (s := s) rfl
  obtain ⟨hrun, hempty⟩ := run_noEvent (engineStepsLeft u) hev
  refine ⟨s.events.length + engineStepsLeft u, _, Nat.add_le_add_left (engineStepsLeft_le u) _,
    (runSteps_add hu).trans hrun, ?_, hempty⟩
  rw [Ne, engineTurns_phase_iff]
  exact Nat.lt_irrefl _

/-- Settles O27: the 65 turns are `engineTurns_block`, and NEXT decides what follows. -/
theorem engineStepsOfABlockComputeCompress : Obligations.EngineStepsOfABlockComputeCompress := by
  intro s hev hp hr hw
  refine ⟨_, (run_noEvent 65 hev).1, ?_⟩
  rw [engineTurns_block hp (Fin.ext hr) hw]
  refine ⟨by simp, by simp, by simp, by simp, by simp, fun hn => ?_, fun hn => ?_, fun hn => ?_⟩
  · simp [afterCombine_absorb, hn]
  · simp [afterCombine_done, hn]
  · simp [afterCombine_pad2, hn, block_secondPadding]

/-- Settles O35: the push is refused in COMPRESS and the block ends; or the block ends and the push is accepted. -/
theorem pushRacesWithTheCombineStep : Obligations.PushRacesWithTheCombineStep := by
  intro s b hp hr hn hb herr
  constructor
  · refine ⟨_, runSteps_two (step_byte_refused rfl hp) (step_combine_absorb rfl hp hr hn), ?_⟩
    simp [hb, herr]
  · refine ⟨_, runSteps_two (step_combine_absorb rfl hp hr hn) (step_byte_accepted rfl rfl), ?_⟩
    have hroom : s.bcount.toNat + 1 ≠ 64 := by simp [hb]
    rw [acceptBytes_partial hroom]
    simp [hb, herr, Memory.read_writeBytes, BitVec.ofNat_add]

end Sys2Proof
end

section
/-! PROOFS. The algorithm as pure functions: the tables (42_compressor.md section 1), padding (41_padding.md section 1), the
digest string (43_serializer.md section 1) and the two reference vectors (95_test_vectors.md section 1). -/

namespace Sys2Proof.Machine

/-! ### The tables -/

theorem shiftOf_bounds : ∀ i, i < 64 → 4 ≤ shiftOf i ∧ shiftOf i ≤ 23 := by decide

/-- The round of quarter `q` that uses word `j`: the factor of R184 inverted mod 16. -/
def roundUsing (q j : Nat) : Nat :=
  16 * q + (if q = 0 then j else if q = 1 then (13 * j + 3) % 16 else if q = 2 then (11 * j + 9) % 16 else 7 * j % 16)

theorem wordIndexOf_roundUsing (q : Nat) {j : Nat} (hj : j < 16) :
    roundUsing q j / 16 = q ∧ wordIndexOf (roundUsing q j) = j := by
  have hquarter : roundUsing q j / 16 = q := by
    unfold roundUsing
    split_ifs <;> omega
  refine ⟨hquarter, ?_⟩
  rw [wordIndexOf_eq, hquarter, roundUsing]
  split_ifs <;> omega

/-- Two rounds of a quarter that use the same word are the same round (R184). -/
theorem wordIndexOf_injective {i i' : Nat} (hi : i < 64) (hq : i' / 16 = i / 16)
    (hj : wordIndexOf i' = wordIndexOf i) : i' = i := by
  rw [wordIndexOf_eq, wordIndexOf_eq, hq] at hj
  split_ifs at hj <;> omega

/-! ### Padding -/

/-- The padding makes up whole blocks (R162). -/
theorem length_pad (msg : List Byte) : (pad msg).length = 64 * padBlocks msg.length := by
  simp only [pad, List.length_append, List.length_cons, List.length_nil, List.length_replicate, length_le64Bytes, padZeros,
    padBlocks]
  omega

theorem padZeros_add (n : Nat) : n + 1 + padZeros n = 64 * padBlocks n - 8 := by
  simp only [padZeros, padBlocks]
  omega

theorem padZeros_lt (n : Nat) : padZeros n < 64 := by
  simp only [padZeros]
  omega

theorem le64Bytes_eq_bytesOfNumber (v : DWord) : le64Bytes v = bytesOfNumber 8 v.toNat := by
  simp only [le64Bytes, bytesOfNumber, BitVec.extractLsb', Nat.shiftRight_eq_div_pow, Nat.div_div_eq_div_mul]
  simp

theorem numberOfBytes_bytesOfNumber (k n : Nat) : numberOfBytes (bytesOfNumber k n) = n % 256 ^ k := by
  induction k generalizing n with
  | zero => simp [bytesOfNumber, numberOfBytes, Nat.mod_one]
  | succ k ih => rw [bytesOfNumber, numberOfBytes, ih, BitVec.toNat_ofNat, Nat.pow_succ' (m := 256), Nat.mod_mul]

theorem numberOfBytes_le64Bytes (v : DWord) : numberOfBytes (le64Bytes v) = v.toNat := by
  rw [le64Bytes_eq_bytesOfNumber, numberOfBytes_bytesOfNumber]
  exact Nat.mod_eq_of_lt v.isLt

theorem length_pad_front (msg : List Byte) :
    (msg ++ [0x80] ++ List.replicate (padZeros msg.length) 0).length = 64 * padBlocks msg.length - 8 := by
  rw [← padZeros_add, List.length_append, List.length_append, List.length_replicate]
  rfl

/-- The bytes of the padded message before its length field (R160, R161). -/
theorem getD_pad (msg : List Byte) {k : Nat} (hk : k < 64 * padBlocks msg.length - 8) (d : Byte) :
    (pad msg).getD k d = if k < msg.length then msg.getD k d else if k = msg.length then 0x80 else 0 := by
  have hzeros := padZeros_add msg.length
  have hfront := length_pad_front msg
  have hmark : (msg ++ [0x80]).length = msg.length + 1 := by simp
  rw [pad, List.getD_append _ _ _ _ (by omega)]
  by_cases hmsg : k < msg.length
  · rw [List.getD_append _ _ _ _ (by omega), List.getD_append _ _ _ _ hmsg, if_pos hmsg]
  · rw [if_neg hmsg]
    by_cases hk' : k = msg.length
    · rw [if_pos hk', List.getD_append _ _ _ _ (by omega), List.getD_append_right _ _ _ _ (by omega), hk', Nat.sub_self]
      rfl
    · rw [if_neg hk', List.getD_append_right _ _ _ _ (by omega), hmark, List.getD_replicate]
      omega

/-- The last 8 bytes are the length field (R160). -/
theorem drop_pad (msg : List Byte) :
    (pad msg).drop (64 * padBlocks msg.length - 8) = le64Bytes (BitVec.ofNat 64 (8 * msg.length)) := by
  rw [pad, ← length_pad_front, List.drop_left]

/-! ### The digest string -/

theorem length_hexBytes (bytes : List Byte) : (hexBytes bytes).length = 2 * bytes.length := by
  induction bytes with
  | nil => rfl
  | cons b bs ih => rw [hexBytes_cons, List.length_cons, List.length_cons, ih, List.length_cons, Nat.mul_succ]

theorem hexChar_range : ∀ v : BitVec 4,
    (0x30 ≤ (hexChar v).toNat ∧ (hexChar v).toNat ≤ 0x39) ∨ (0x61 ≤ (hexChar v).toNat ∧ (hexChar v).toNat ≤ 0x66) := by
  decide

theorem hexChar_injective : ∀ v v' : BitVec 4, hexChar v = hexChar v' → v = v' := by decide

theorem exists_hexChar_of_mem {bytes : List Byte} {c : Byte} (h : c ∈ hexBytes bytes) : ∃ v, c = hexChar v := by
  obtain ⟨b, -, hc⟩ := List.mem_flatMap.mp h
  simp only [List.mem_cons, List.not_mem_nil, or_false] at hc
  obtain rfl | rfl := hc <;> exact ⟨_, rfl⟩

/-- A byte is its two nibbles. -/
theorem byte_eq_of_nibbles {b b' : Byte} (hhigh : b.extractLsb' 4 4 = b'.extractLsb' 4 4)
    (hlow : b.extractLsb' 0 4 = b'.extractLsb' 0 4) : b = b' :=
  have nibbles (x : Byte) : x.extractLsb' 4 4 ++ x.extractLsb' 0 4 = x :=
    BitVec.extractLsb'_append_extractLsb' (w := 4) (len := 4)
  calc b = b.extractLsb' 4 4 ++ b.extractLsb' 0 4 := (nibbles b).symm
    _ = b'.extractLsb' 4 4 ++ b'.extractLsb' 0 4 := by rw [hhigh, hlow]
    _ = b' := nibbles b'

theorem hexBytes_injective : ∀ {bytes bytes' : List Byte}, hexBytes bytes = hexBytes bytes' → bytes = bytes'
  | [], [], _ => rfl
  | [], _ :: _, h => by cases h
  | _ :: _, [], h => by cases h
  | b :: bs, b' :: bs', h => by
    simp only [hexBytes_cons, List.cons.injEq] at h
    obtain ⟨hhigh, hlow, hrest⟩ := h
    rw [byte_eq_of_nibbles (hexChar_injective _ _ hhigh) (hexChar_injective _ _ hlow), hexBytes_injective hrest]

theorem le32Bytes_injective {v v' : Word} (h : le32Bytes v = le32Bytes v') : v = v' := by
  simp only [le32Bytes, List.cons.injEq, and_true] at h
  obtain ⟨h0, h1, h2, h3⟩ := h
  rw [← le32_lanes v, ← le32_lanes v', h0, h1, h2, h3]

theorem flatMap_le32Bytes_injective : ∀ {ws ws' : List Word},
    ws.flatMap le32Bytes = ws'.flatMap le32Bytes → ws = ws'
  | [], [], _ => rfl
  | [], _ :: _, h => by cases h
  | _ :: _, [], h => by cases h
  | w :: ws, w' :: ws', h => by
    rw [List.flatMap_cons, List.flatMap_cons] at h
    obtain ⟨hword, hrest⟩ := List.append_inj h rfl
    rw [le32Bytes_injective hword, flatMap_le32Bytes_injective hrest]

theorem serialize_injective {h h' : Quad} (hs : serialize h = serialize h') : h = h' := by
  rw [serialize_eq_flatMap, serialize_eq_flatMap] at hs
  obtain ⟨a, b, c, d⟩ := h
  obtain ⟨a', b', c', d'⟩ := h'
  simpa using flatMap_le32Bytes_injective hs

theorem md5_empty : md5 [] = ⟨0xd98c1dd4, 0x04b2008f, 0x980980e9, 0x7e42f8ec⟩ := by decide +kernel

theorem md5_abc : md5 [0x61, 0x62, 0x63] = ⟨0x98500190, 0xb04fd23c, 0x7d3f96d6, 0x727fe128⟩ := by decide +kernel
end Sys2Proof.Machine

namespace Sys2Proof

open Machine

/-- Settles O39: the shifts by evaluation; the round that uses a word inverts the index mod 16. -/
theorem shiftsAndWordIndexesAreWellSpread : Obligations.ShiftsAndWordIndexesAreWellSpread := by
  refine ⟨shiftOf_bounds, fun q j hq hj => ?_⟩
  obtain ⟨hquarter, hword⟩ := wordIndexOf_roundUsing q hj
  have hround : roundUsing q j < 64 := by omega
  refine ⟨roundUsing q j, hquarter, hword, fun i' hq' hj' => ?_⟩
  exact wordIndexOf_injective hround (hq'.trans hquarter.symm) (hj'.trans hword.symm)

/-- Settles O40: the length of each part, and the bytes of each part. -/
theorem paddingPostcondition : Obligations.PaddingPostcondition := by
  intro msg
  have hfit := padZeros_add msg.length
  have hlt := padZeros_lt msg.length
  rw [length_pad]
  refine ⟨rfl, by omega, by omega, ?_, ?_, fun k hlow hhigh => ?_, ?_⟩
  · rw [pad, List.append_assoc, List.append_assoc, List.take_left]
  · rw [getD_pad msg (by omega), if_neg (Nat.lt_irrefl _), if_pos rfl]
  · rw [getD_pad msg hhigh, if_neg (by omega), if_neg (by omega)]
  · rw [drop_pad, numberOfBytes_le64Bytes, BitVec.toNat_ofNat]

/-- Settles O41: two characters for each of the 16 bytes, each `hexChar` of a nibble; and each part of the rendering is
injective. -/
theorem digestStringIs32LowercaseHexCharacters : Obligations.DigestStringIs32LowercaseHexCharacters := by
  refine ⟨fun h => ⟨?_, fun c hc => ?_⟩, fun h h' hs => serialize_injective (hexBytes_injective hs)⟩
  · rw [digestString, length_hexBytes, length_serialize]
  · obtain ⟨v, rfl⟩ := exists_hexChar_of_mem hc
    exact hexChar_range v

/-- Settles O42: both vectors by evaluation. -/
theorem referenceVectorsHold : Obligations.ReferenceVectorsHold := ⟨md5_empty, md5_abc⟩

end Sys2Proof
end

section
/-! PROOFS. Blocks of a message (20_memory.md R83, 42_compressor.md R189): the accumulator after some of its blocks, and the
buffer as one of its blocks. -/

namespace Sys2Proof.Machine

/-! ### Blocks -/

theorem getD_blockOf (bytes : List Byte) (j : Nat) {k : Nat} (hk : k < 64) :
    (blockOf bytes j).getD k 0 = bytes.getD (64 * j + k) 0 := by
  rw [blockOf, List.getD_eq_getElem?_getD, List.getElem?_take_of_lt hk, List.getElem?_drop, ← List.getD_eq_getElem?_getD]

theorem length_blockOf {bytes : List Byte} {j : Nat} (h : 64 * j + 64 ≤ bytes.length) : (blockOf bytes j).length = 64 := by
  rw [blockOf, List.length_take, List.length_drop]
  omega

theorem blockOf_append {bytes : List Byte} {j : Nat} (h : 64 * j + 64 ≤ bytes.length) (tail : List Byte) :
    blockOf (bytes ++ tail) j = blockOf bytes j := by
  have hrest : 64 ≤ (bytes.drop (64 * j)).length := by
    rw [List.length_drop]
    omega
  rw [blockOf, blockOf, List.drop_append_of_le_length (by omega), List.take_append_of_le_length hrest]

/-- A buffer that holds the bytes of a block is the block. -/
theorem Memory.block_eq_blockOf {m : Memory} {bytes : List Byte} {j : Nat} (hj : 64 * j + 64 ≤ bytes.length)
    (h : ∀ k, k < 64 → m.read k = bytes.getD (64 * j + k) 0) : m.block = blockOf bytes j :=
  Memory.block_eq (length_blockOf hj) fun k hk => by rw [h k hk, getD_blockOf bytes j hk]

/-! ### The accumulator after some blocks -/

/-- The accumulator after blocks 0 to q - 1 of a byte sequence. -/
def chainBlocks (q : Nat) (bytes : List Byte) : Quad := ((List.range q).map (blockOf bytes)).foldl compress iv

theorem chain_eq_chainBlocks (bytes : List Byte) : chain bytes = chainBlocks (bytes.length / 64) bytes := rfl

theorem chainBlocks_succ (q : Nat) (bytes : List Byte) :
    chainBlocks (q + 1) bytes = compress (chainBlocks q bytes) (blockOf bytes q) := by
  rw [chainBlocks, List.range_succ, List.map_append, List.foldl_append]
  rfl

/-- Bytes behind the blocks do not matter to them. -/
theorem chainBlocks_append {q : Nat} {bytes : List Byte} (h : 64 * q ≤ bytes.length) (tail : List Byte) :
    chainBlocks q (bytes ++ tail) = chainBlocks q bytes := by
  rw [chainBlocks, chainBlocks]
  refine congrArg (List.foldl compress iv) (List.map_congr_left fun j hj => blockOf_append ?_ tail)
  have := List.mem_range.mp hj
  omega

/-! ### The blocks of a padded message -/

theorem pad_eq_append (msg : List Byte) : ∃ tail, pad msg = msg ++ tail :=
  ⟨_, by rw [pad, List.append_assoc, List.append_assoc]⟩

theorem getD_pad_length (msg : List Byte) {j : Nat} (hj : j < 8) :
    (pad msg).getD (64 * padBlocks msg.length - 8 + j) 0 =
      (BitVec.ofNat 64 (8 * msg.length)).extractLsb' (8 * j) 8 := by
  rw [← getD_le64Bytes _ hj, ← drop_pad, List.getD_eq_getElem?_getD, List.getD_eq_getElem?_getD, List.getElem?_drop]

theorem chainBlocks_pad (msg : List Byte) : chainBlocks (msg.length / 64) (pad msg) = chain msg := by
  obtain ⟨tail, e⟩ := pad_eq_append msg
  rw [e, chainBlocks_append (Nat.mul_div_le ..), chain_eq_chainBlocks]

theorem md5_eq_chainBlocks (msg : List Byte) : md5 msg = chainBlocks (padBlocks msg.length) (pad msg) := by
  rw [md5, chain_eq_chainBlocks, length_pad, Nat.mul_div_cancel_left _ (by decide)]

theorem padBlocks_short {n : Nat} (h : n % 64 ≤ 55) : padBlocks n = n / 64 + 1 := by
  rw [padBlocks]
  omega

theorem padBlocks_long {n : Nat} (h : 56 ≤ n % 64) : padBlocks n = n / 64 + 2 := by
  rw [padBlocks]
  omega

end Sys2Proof.Machine
end

section
/-! PROOFS. The states that have taken in a message: what a push and FINAL make of them (40_input.md R141 to R144,
41_padding.md section 2). -/

namespace Sys2Proof.Machine

variable {s : State} {msg bytes : List Byte}

theorem absorbed_init (s : State) :
    Absorbed { s with acc := iv, len := 0, lenwrap := false, buf := [], bcount := 0, phase := .absorb } [] where
  collecting := rfl
  chained := rfl
  counted := rfl
  length := rfl
  buffered := fun k hk => absurd hk (Nat.not_lt_zero k)

theorem Absorbed.atBoundary (h : Absorbed s msg) (e : Bool) (c : ErrCode) (v : Option Word) (evs : List Event) :
    Absorbed (atBoundary s e c v evs) msg where
  collecting := h.collecting
  chained := h.chained
  counted := h.counted
  length := h.length
  buffered := h.buffered

theorem Absorbed.setEvents (h : Absorbed s msg) (evs : List Event) : Absorbed { s with events := evs } msg :=
  h.atBoundary s.err s.errcode s.readData evs

/-! ### A push -/

/-- The buffer after a push holds the message's bytes up to the last one pushed. -/
theorem Absorbed.read_push (h : Absorbed s msg) {k : Nat} (hk : k < msg.length % 64 + bytes.length) :
    (s.buf.writeBytes s.bcount.toNat bytes).read k = (msg ++ bytes).getD (64 * (msg.length / 64) + k) 0 := by
  have hdiv := Nat.div_add_mod msg.length 64
  rw [Memory.read_writeBytes, h.counted]
  by_cases hold : k < msg.length % 64
  · rw [if_neg (by omega), h.buffered k hold, List.getD_append _ _ _ _ (by omega)]
  · have hindex : 64 * (msg.length / 64) + k - msg.length = k - msg.length % 64 := by omega
    rw [if_pos (by omega), List.getD_append_right _ _ _ _ (by omega), hindex]

theorem Absorbed.length_push (h : Absorbed s msg) (bytes : List Byte) :
    BitVec.ofNat 64 (s.len.toNat + 8 * bytes.length) = BitVec.ofNat 64 (8 * (msg ++ bytes).length) := by
  rw [h.length, List.length_append, Nat.mul_add, BitVec.ofNat_add, BitVec.ofNat_add, BitVec.ofNat_toNat,
    BitVec.setWidth_eq]

theorem Absorbed.push_partial (h : Absorbed s msg) (hroom : msg.length % 64 + bytes.length < 64) :
    Absorbed (acceptBytes bytes s) (msg ++ bytes) := by
  have hblocks : (msg ++ bytes).length / 64 = msg.length / 64 := by
    rw [List.length_append]
    omega
  have hcount : (msg ++ bytes).length % 64 = msg.length % 64 + bytes.length := by
    rw [List.length_append]
    omega
  have hbcount : s.bcount.toNat + bytes.length < 64 := by rwa [h.counted]
  rw [acceptBytes_partial (Nat.ne_of_lt hbcount)]
  constructor
  case collecting => exact h.collecting
  case chained =>
    rw [chain_eq_chainBlocks, hblocks, chainBlocks_append (Nat.mul_div_le ..)]
    exact h.chained
  case counted =>
    rw [hcount, ← h.counted]
    exact Nat.mod_eq_of_lt hbcount
  case length => exact h.length_push bytes
  case buffered =>
    rw [hcount, hblocks]
    exact fun k hk => h.read_push hk

/-- A push that fills the block, and the 65 turns of the Engine for it. -/
theorem Absorbed.push_full (h : Absorbed s msg) (hfull : msg.length % 64 + bytes.length = 64) :
    Absorbed (engineTurns 65 (acceptBytes bytes s)) (msg ++ bytes) := by
  have hblocks : (msg ++ bytes).length / 64 = msg.length / 64 + 1 := by
    rw [List.length_append]
    omega
  have hcount : (msg ++ bytes).length % 64 = 0 := by
    rw [List.length_append]
    omega
  have hblock : (s.buf.writeBytes s.bcount.toNat bytes).block = blockOf (msg ++ bytes) (msg.length / 64) := by
    refine Memory.block_eq_blockOf ?_ fun k hk => h.read_push (by omega)
    rw [List.length_append]
    omega
  rw [acceptBytes_full (by rwa [h.counted]), engineTurns_startCompress, afterCombine_absorb rfl]
  constructor
  case collecting => rfl
  case chained =>
    rw [chain_eq_chainBlocks, hblocks, chainBlocks_succ, chainBlocks_append (Nat.mul_div_le ..), ← hblock,
      ← chain_eq_chainBlocks, ← h.chained]
    rfl
  case counted =>
    rw [hcount]
    rfl
  case length => exact h.length_push bytes
  case buffered =>
    rw [hcount]
    exact fun k hk => absurd hk (Nat.not_lt_zero k)

/-! ### FINAL -/

/-- The bytes of the padded message from the last block's start to the length field, in terms of the buffer. -/
theorem Absorbed.getD_pad (h : Absorbed s msg) {k : Nat}
    (hk : 64 * (msg.length / 64) + k < 64 * padBlocks msg.length - 8) :
    (pad msg).getD (64 * (msg.length / 64) + k) 0 =
      if k < s.bcount.toNat then s.buf.read k else if k = s.bcount.toNat then 0x80 else 0 := by
  have hdiv := Nat.div_add_mod msg.length 64
  rw [Machine.getD_pad msg hk, h.counted]
  by_cases hmsg : k < msg.length % 64
  · rw [if_pos (by omega), if_pos hmsg, h.buffered k hmsg]
  · rw [if_neg (by omega), if_neg hmsg]
    exact if_congr (by omega) rfl rfl

/-- FINAL where the length fits: one block ends the hash (R164). -/
theorem Absorbed.final_short (h : Absorbed s msg) (hshort : msg.length % 64 ≤ 55) :
    (engineTurns 65 (finalPadding s)).phase = .done ∧ (engineTurns 65 (finalPadding s)).acc = md5 msg := by
  have hbcount : s.bcount.toNat ≤ 55 := by rwa [h.counted]
  have hblocks := padBlocks_short hshort
  have hblock : (writeLength s.len (markEnd s.bcount.toNat s.buf)).block = blockOf (pad msg) (msg.length / 64) := by
    refine Memory.block_eq_blockOf (by rw [length_pad]; omega) fun k hk => ?_
    rw [read_writeLength_markEnd hbcount]
    by_cases hfield : k < 56
    · rw [h.getD_pad (by omega), if_pos hfield]
    · have hindex : 64 * (msg.length / 64) + k = 64 * padBlocks msg.length - 8 + (k - 56) := by omega
      rw [if_neg (by omega), if_neg (by omega), if_neg hfield, if_pos hk, hindex, getD_pad_length msg (by omega), h.length]
  rw [finalPadding_short hbcount, engineTurns_startCompress, afterCombine_done rfl]
  refine ⟨rfl, ?_⟩
  rw [md5_eq_chainBlocks, hblocks, chainBlocks_succ, chainBlocks_pad, ← hblock, ← h.chained]

/-- FINAL where the length does not fit: a second padding block ends the hash (R164, R165). -/
theorem Absorbed.final_long (h : Absorbed s msg) (hlong : 56 ≤ msg.length % 64) :
    (engineTurns 130 (finalPadding s)).phase = .done ∧ (engineTurns 130 (finalPadding s)).acc = md5 msg := by
  have hbcount : 56 ≤ s.bcount.toNat := by rwa [h.counted]
  have hmark : s.bcount.toNat ≤ 63 := Nat.le_of_lt_succ s.bcount.isLt
  have hblocks := padBlocks_long hlong
  have hfirst : (markEnd s.bcount.toNat s.buf).block = blockOf (pad msg) (msg.length / 64) := by
    refine Memory.block_eq_blockOf (by rw [length_pad]; omega) fun k hk => ?_
    rw [read_markEnd hmark, h.getD_pad (by omega), if_pos hk]
  have hsecond (m : Memory) : (secondPadding s.len m).block = blockOf (pad msg) (msg.length / 64 + 1) := by
    refine Memory.block_eq_blockOf (by rw [length_pad]; omega) fun k hk => ?_
    rw [read_secondPadding]
    by_cases hfield : k < 56
    · rw [Machine.getD_pad msg (by omega), if_pos hfield, if_neg (by omega), if_neg (by omega)]
    · have hindex : 64 * (msg.length / 64 + 1) + k = 64 * padBlocks msg.length - 8 + (k - 56) := by omega
      rw [if_neg hfield, if_pos hk, hindex, getD_pad_length msg (by omega), h.length]
  rw [finalPadding_long hbcount, engineTurns_add 65 65, engineTurns_startCompress, afterCombine_pad2 rfl,
    engineTurns_startCompress, afterCombine_done rfl]
  refine ⟨rfl, ?_⟩
  rw [md5_eq_chainBlocks, hblocks, chainBlocks_succ, chainBlocks_succ, chainBlocks_pad, ← hfirst,
    ← hsecond (markEnd s.bcount.toNat s.buf), ← h.chained]
  rfl

/-- FINAL and the 65 turns of each padding block give the digest. -/
theorem Absorbed.final (h : Absorbed s msg) :
    (engineTurns (65 * if msg.length % 64 ≤ 55 then 1 else 2) (finalPadding s)).phase = .done ∧
      (engineTurns (65 * if msg.length % 64 ≤ 55 then 1 else 2) (finalPadding s)).acc = md5 msg := by
  by_cases hshort : msg.length % 64 ≤ 55
  · rw [if_pos hshort]
    exact h.final_short hshort
  · rw [if_neg hshort]
    exact h.final_long (by omega)

end Sys2Proof.Machine
end

section
/-! PROOFS. Whole hashes (70_reset_and_hazards.md section 2): what the inputs of each part of the protocol do, one after the
other, and the statements about them. -/

namespace Sys2Proof.Machine

variable {s t u : State} {msg : List Byte}

/-! ### Taking inputs -/

/-- The inputs `evs` are the next ones of `s` and lead to `t`; only a CLRERR among them changes the error record. -/
structure Takes (evs : List Event) (s t : State) : Prop where
  run : runSteps evs.length s = .next t
  events : s.events = evs ++ t.events
  err : t.err = if clearsError evs then false else s.err
  errcode : t.errcode = if clearsError evs then .none else s.errcode

theorem clearsError_append (evs evs' : List Event) :
    clearsError (evs ++ evs') = (clearsError evs || clearsError evs') := List.any_append

theorem Takes.trans {evs evs' : List Event} (h : Takes evs s t) (h' : Takes evs' t u) : Takes (evs ++ evs') s u where
  run := by rw [List.length_append, runSteps_add h.run, h'.run]
  events := by rw [h.events, h'.events, List.append_assoc]
  err := by
    rw [h'.err, h.err, clearsError_append]
    cases clearsError evs <;> cases clearsError evs' <;> rfl
  errcode := by
    rw [h'.errcode, h.errcode, clearsError_append]
    cases clearsError evs <;> cases clearsError evs' <;> rfl

/-- The error record after the inputs, as the statements put it. -/
theorem Takes.record {evs : List Event} (h : Takes evs s t) :
    (clearsError evs = false → t.err = s.err ∧ t.errcode = s.errcode) ∧
      (clearsError evs = true → t.err = false ∧ t.errcode = .none) := by
  rw [h.err, h.errcode]
  constructor <;> intro hc <;> rw [hc] <;> exact ⟨rfl, rfl⟩

theorem Takes.nil (s : State) : Takes [] s s := ⟨rfl, rfl, rfl, rfl⟩

/-- One input that is no CLRERR and keeps the error record. -/
theorem takes_one {ev : Event} (hev : s.events = ev :: t.events) (hclr : isClrErr ev = false) (hstep : step s = .next t)
    (herr : t.err = s.err) (hcode : t.errcode = s.errcode) : Takes [ev] s t := by
  have hno : clearsError [ev] = false := by rw [clearsError, List.any_cons, hclr]; rfl
  exact ⟨runSteps_succ hstep, hev, by rw [hno]; exact herr, by rw [hno]; exact hcode⟩

/-- A wait is the Engine's turns in it, apart from the boundary. -/
theorem takes_wait {wait rest : List Event} (hev : s.events = wait ++ rest) (hq : wait.all isQuiet = true) :
    ∃ e c v, Takes wait s (atBoundary (engineTurns (engineTurnsIn wait) s) e c v rest) := by
  obtain ⟨v, hrun⟩ := run_wait hev hq
  exact ⟨_, _, v, hrun, hev, rfl, rfl⟩

/-- While bytes are collected a wait changes nothing of the message. -/
theorem Absorbed.takes_wait (h : Absorbed s msg) {wait rest : List Event} (hev : s.events = wait ++ rest)
    (hq : wait.all isQuiet = true) : ∃ t, Takes wait s t ∧ t.events = rest ∧ Absorbed t msg := by
  obtain ⟨e, c, v, htakes⟩ := Machine.takes_wait hev hq
  have hidle : s.phase ≠ .compress := by simp [h.collecting]
  rw [engineTurns_idle hidle] at htakes
  exact ⟨_, htakes, rfl, h.atBoundary e c v rest⟩

/-- A wait that leaves at least `k` turns, where after `k` turns no block runs, ends as after `k` turns. -/
theorem engineTurns_of_le {k n : Nat} (hkn : k ≤ n) (hidle : (engineTurns k s).phase ≠ .compress) :
    engineTurns n s = engineTurns k s := by
  obtain ⟨d, rfl⟩ := Nat.exists_eq_add_of_le hkn
  rw [engineTurns_add, engineTurns_idle hidle]

/-! ### INIT, a push, FINAL -/

theorem takes_init {rest : List Event} (hp : s.phase ≠ .compress) (hev : s.events = .bus (busWord true 0 1) :: rest) :
    ∃ t, Takes [.bus (busWord true 0 1)] s t ∧ t.events = rest ∧ Absorbed t [] := by
  have hstep : step s = exec .cmdInit { s with events := rest } := step_event hev
  rw [exec_cmdInit (s := { s with events := rest }) hp] at hstep
  exact ⟨_, takes_one hev rfl hstep rfl rfl, rfl, absorbed_init _⟩

/-- An aligned push leaves the block at most full. -/
theorem push_fits {p : HostPush} {n : Nat} (h : pushAligned n p = true) : n % 64 + (pushBytes p).length ≤ 64 := by
  cases p with
  | byte b =>
    rw [pushBytes, List.length_singleton]
    omega
  | word b0 b1 b2 b3 =>
    have h4 : n % 4 = 0 := by simpa [pushAligned] using h
    have hlength : (pushBytes (.word b0 b1 b2 b3)).length = 4 := rfl
    omega

theorem isClrErr_pushWord (p : HostPush) : isClrErr (.bus (pushWord p)) = false := by
  have hwidx : opWidx clrErrWord = 0 := opWidx_busWord ..
  refine beq_eq_false_iff_ne.mpr fun h => ?_
  rw [← h] at hwidx
  cases p <;> rw [pushWord, opWidx_busWord] at hwidx <;> exact absurd hwidx (by decide)

theorem Absorbed.exec_push (h : Absorbed s msg) {p : HostPush} (hp : pushAligned msg.length p = true) :
    exec (decode (pushWord p)) s = .next (acceptBytes (pushBytes p) s) := by
  cases p with
  | byte b =>
    rw [pushWord, decode_byteWord]
    exact exec_pushB b h.collecting
  | word b0 b1 b2 b3 =>
    have h4 : s.bcount.toNat % 4 = 0 := by
      have : msg.length % 4 = 0 := by simpa [pushAligned] using hp
      rw [h.counted]
      omega
    have hdecode : decode (pushWord (.word b0 b1 b2 b3)) = .pushW b0 b1 b2 b3 :=
      decode_encode (i := .pushW b0 b1 b2 b3) rfl rfl
    rw [hdecode]
    exact exec_pushW b0 b1 b2 b3 h.collecting h4

/-- A legal push and its wait extend the message (R141, R142, R144). -/
theorem Absorbed.takes_push (h : Absorbed s msg) {p : HostPush} {wait rest : List Event}
    (hp : pushAligned msg.length p = true) (hev : s.events = .bus (pushWord p) :: (wait ++ rest))
    (hq : wait.all isQuiet = true)
    (hturns : (msg.length + (pushBytes p).length) % 64 = 0 → 65 ≤ engineTurnsIn wait) :
    ∃ t, Takes (.bus (pushWord p) :: wait) s t ∧ t.events = rest ∧ Absorbed t (msg ++ pushBytes p) := by
  have h' := h.setEvents (wait ++ rest)
  have hstep : step s = .next (acceptBytes (pushBytes p) { s with events := wait ++ rest }) :=
    (step_event hev).trans (h'.exec_push hp)
  have hpush : Takes [.bus (pushWord p)] s (acceptBytes (pushBytes p) { s with events := wait ++ rest }) :=
    takes_one (by simpa using hev) (isClrErr_pushWord p) hstep (by simp) (by simp)
  have hevents : (acceptBytes (pushBytes p) { s with events := wait ++ rest }).events = wait ++ rest :=
    acceptBytes_events ..
  by_cases hfull : msg.length % 64 + (pushBytes p).length = 64
  · have hdone := h'.push_full hfull
    have henough : 65 ≤ engineTurnsIn wait := hturns (by omega)
    obtain ⟨e, c, v, hwait⟩ := Machine.takes_wait hevents hq
    rw [engineTurns_of_le henough (by simp [hdone.collecting])] at hwait
    exact ⟨_, hpush.trans hwait, rfl, hdone.atBoundary e c v rest⟩
  · have hroom : msg.length % 64 + (pushBytes p).length < 64 := Nat.lt_of_le_of_ne (push_fits hp) hfull
    obtain ⟨t, hwait, hrest, ht⟩ := (h'.push_partial hroom).takes_wait hevents hq
    exact ⟨t, hpush.trans hwait, hrest, ht⟩

/-- FINAL and its wait end the hash (41_padding.md section 2). -/
theorem Absorbed.takes_final (h : Absorbed s msg) {wait rest : List Event}
    (hev : s.events = .bus (busWord true 0 2) :: (wait ++ rest)) (hq : wait.all isQuiet = true)
    (hturns : 65 * (if msg.length % 64 ≤ 55 then 1 else 2) ≤ engineTurnsIn wait) :
    ∃ t, Takes (.bus (busWord true 0 2) :: wait) s t ∧ t.events = rest ∧ hashDone t ∧ t.acc = md5 msg := by
  have h' := h.setEvents (wait ++ rest)
  have hstep : step s = .next (finalPadding { s with events := wait ++ rest }) :=
    (step_event hev).trans (exec_cmdFinal (s := { s with events := wait ++ rest }) h.collecting)
  have hfinal : Takes [.bus (busWord true 0 2)] s (finalPadding { s with events := wait ++ rest }) :=
    takes_one (by simpa using hev) rfl hstep (by simp) (by simp)
  obtain ⟨hphase, hacc⟩ := h'.final
  have hevents : (finalPadding { s with events := wait ++ rest }).events = wait ++ rest := finalPadding_events _
  obtain ⟨e, c, v, hwait⟩ := Machine.takes_wait hevents hq
  rw [engineTurns_of_le hturns (by rw [hphase]; decide)] at hwait
  exact ⟨_, hfinal.trans hwait, rfl, hphase, hacc⟩

/-- All pushes of the protocol, one after the other. -/
theorem Absorbed.takes_pushes {ps : List PushStep} (h : Absorbed s msg) {rest : List Event}
    (hfollows : followsProtocol msg.length ps = true) (hev : s.events = pushEvents ps ++ rest) :
    ∃ t, Takes (pushEvents ps) s t ∧ t.events = rest ∧ Absorbed t (msg ++ messageOf ps) := by
  induction ps generalizing s msg with
  | nil => exact ⟨s, .nil s, hev, by rwa [messageOf, List.flatMap_nil, List.append_nil]⟩
  | cons p ps ih =>
    simp only [followsProtocol, Bool.and_eq_true, Bool.or_eq_true, bne_iff_ne, decide_eq_true_eq] at hfollows
    obtain ⟨⟨⟨haligned, hquiet⟩, hturns⟩, hlater⟩ := hfollows
    have hevents : pushEvents (p :: ps) = (.bus (pushWord p.push) :: p.wait) ++ pushEvents ps := rfl
    have hmessage : messageOf (p :: ps) = pushBytes p.push ++ messageOf ps := rfl
    rw [hevents, List.append_assoc] at hev
    obtain ⟨t, htakes, hrest, ht⟩ := h.takes_push haligned hev hquiet fun hfull => hturns.resolve_left (not_not.mpr hfull)
    rw [← List.length_append] at hlater
    obtain ⟨u, htakes', hrest', hu⟩ := ih ht hlater hrest
    rw [hevents, hmessage, ← List.append_assoc]
    exact ⟨u, htakes.trans htakes', hrest', hu⟩

/-- Steps 1 to 4 of the protocol (R294). -/
theorem takes_hash {start wait rest : List Event} {ps : List PushStep} (hp : s.phase ≠ .compress)
    (hev : s.events = hashEvents start ps wait ++ rest) (hstart : start.all isQuiet = true)
    (hfollows : followsProtocol 0 ps = true) (hwait : wait.all isQuiet = true)
    (hturns : 65 * (if (messageOf ps).length % 64 ≤ 55 then 1 else 2) ≤ engineTurnsIn wait) :
    ∃ t, Takes (hashEvents start ps wait) s t ∧ t.events = rest ∧ hashDone t ∧ t.acc = md5 (messageOf ps) := by
  have hparts : hashEvents start ps wait =
      [.bus (busWord true 0 1)] ++ (start ++ (pushEvents ps ++ (.bus (busWord true 0 2) :: wait))) := by
    rw [hashEvents, List.append_assoc]
    rfl
  simp only [hparts, List.append_assoc, List.cons_append, List.nil_append] at hev
  rw [hparts]
  obtain ⟨t1, h1, hev1, habs1⟩ := takes_init hp hev
  obtain ⟨t2, h2, hev2, habs2⟩ := habs1.takes_wait hev1 hstart
  obtain ⟨t3, h3, hev3, habs3⟩ := habs2.takes_pushes hfollows hev2
  obtain ⟨t4, h4, hev4, hdone, hacc⟩ := habs3.takes_final hev3 hwait hturns
  exact ⟨t4, h1.trans (h2.trans (h3.trans h4)), hev4, hdone, hacc⟩

/-! ### Reading the digest -/

/-- What the Host is told by a read of the word `w`. -/
def readValue (s : State) (w : BusWord) : Word :=
  match exec (decode w) s with
  | .next t => t.readData.getD 0
  | .fault _ => 0
  | .refused _ => 0

/-- The boundary does not matter to what a read tells. -/
theorem exec_readWord {w : BusWord} (h : opWrite w = false) (s : State) (v : Option Word) (evs : List Event) :
    exec (decode w) { s with readData := v, events := evs } =
      .next { s with readData := some (readValue s w), events := evs } := by
  obtain ⟨x, hs, hs'⟩ := exec_read_congr (s := s) (s' := { s with readData := v, events := evs }) (decode_isRead h)
    rfl rfl fun _ => rfl
  have hvalue : readValue s w = x := by rw [readValue, hs]; rfl
  rw [hs', hvalue]

theorem answers_reads {words : List BusWord} (hread : ∀ w ∈ words, opWrite w = false) (v : Option Word) :
    answers words.length { s with readData := v, events := words.map .bus } = words.map (readValue s) := by
  induction words generalizing v with
  | nil => rfl
  | cons w words ih =>
    have hstep := (step_event (s := { s with readData := v, events := (w :: words).map .bus }) rfl).trans
      (exec_readWord (hread w List.mem_cons_self) s v (words.map .bus))
    rw [List.length_cons, answers, hstep, List.map_cons]
    exact congrArg (readValue s w :: ·) (ih (fun w' hw' => hread w' (List.mem_cons_of_mem _ hw')) _)

/-- The words that step 5 reads: STATUS, then the digest. -/
theorem readOutEvents_eq (r : ReadOut) : readOutEvents r = (busWord false 1 0 :: readOutWords r).map .bus := rfl

theorem readOutWords_read (r : ReadOut) : ∀ w ∈ busWord false 1 0 :: readOutWords r, opWrite w = false := by
  cases r <;> simp [readOutWords]

theorem readValue_status (s : State) : readValue s (busWord false 1 0) = statusWord s := rfl

theorem map_readValue_digest (s : State) :
    (readOutWords .digest).map (readValue s) = [s.acc.a, s.acc.b, s.acc.c, s.acc.d] := rfl

theorem map_readValue_hex (s : State) :
    (readOutWords .hex).map (readValue s) = [hexWord s.acc 0, hexWord s.acc 1, hexWord s.acc 2, hexWord s.acc 3,
      hexWord s.acc 4, hexWord s.acc 5, hexWord s.acc 6, hexWord s.acc 7] := rfl

/-- HEX0..HEX7 are the digest string, four characters each (R224). -/
theorem flatMap_hexWords (h : Quad) :
    [hexWord h 0, hexWord h 1, hexWord h 2, hexWord h 3, hexWord h 4, hexWord h 5, hexWord h 6, hexWord h 7].flatMap
      le32Bytes = digestString h := by
  have hlength : (digestString h).length = 32 := by rw [digestString, length_hexBytes, length_serialize]
  have hword {q : Nat} (hq : q < 8) :
      [hexWord h 0, hexWord h 1, hexWord h 2, hexWord h 3, hexWord h 4, hexWord h 5, hexWord h 6, hexWord h 7].getD q 0 =
        hexWord h (BitVec.ofNat 3 q) := by
    interval_cases q <;> rfl
  refine List.ext_getElem (by rw [hlength]; rfl) fun c hc hc' => ?_
  rw [hlength] at hc'
  rw [← List.getD_eq_getElem _ 0 hc, ← List.getD_eq_getElem _ 0 (by rwa [hlength]), getD_flatMap_le32Bytes,
    hword (by omega), lane_hexWord h _ (Nat.mod_lt c (by decide)), BitVec.toNat_ofNat]
  congr 1
  omega

/-- Either read-out gives the Host the digest string (R220, R221, R224). -/
theorem digestRead_readOut (r : ReadOut) (s : State) :
    digestRead r ((readOutWords r).map (readValue s)) = digestString s.acc := by
  cases r with
  | digest =>
    rw [map_readValue_digest, digestRead, ← serialize_eq_flatMap]
    rfl
  | hex => rw [map_readValue_hex, digestRead, flatMap_hexWords]

theorem statusWord_bits (s : State) :
    (statusWord s).getLsbD 1 = decide (s.phase = .done) ∧ (statusWord s).getLsbD 2 = s.err := by
  obtain ⟨v, hv, -, hdone, herr, -⟩ := statusReadShowsEveryField s 0
  rw [exec_rdStatus, Host.Outcome.next.injEq] at hv
  obtain rfl : statusWord s = v := Option.some.inj (congrArg State.readData hv)
  exact ⟨hdone, herr⟩

end Sys2Proof.Machine

namespace Sys2Proof

open Machine

/-- Settles O43: the push is accepted, and its wait gives the Engine the 65 turns where they are needed. -/
theorem acceptedPushExtendsTheMessage : Obligations.AcceptedPushExtendsTheMessage := by
  intro s msg p wait h hp hev hq hturns
  obtain ⟨t, htakes, hrest, ht⟩ := h.takes_push (rest := []) hp (by rw [hev, List.append_nil]) hq hturns
  have hclears : clearsError (.bus (pushWord p) :: wait) = clearsError wait := by
    rw [clearsError, List.any_cons, isClrErr_pushWord]
    rfl
  rw [← hclears, Nat.add_comm]
  exact ⟨t, htakes.run, ht, hrest, htakes.record⟩

/-- Settles O44: FINAL starts the padding blocks, and its wait gives the Engine the turns they need. -/
theorem finalGivesTheDigest : Obligations.FinalGivesTheDigest := by
  intro s msg wait h hev hq hturns
  obtain ⟨t, htakes, hrest, hdone, hacc⟩ := h.takes_final (rest := []) (by rw [hev, List.append_nil]) hq hturns
  have hclears : clearsError (.bus (busWord true 0 2) :: wait) = clearsError wait := rfl
  rw [← hclears, Nat.add_comm]
  exact ⟨t, htakes.run, hdone, hacc, hrest, htakes.record⟩

/-- Settles O45: INIT, the waits, the pushes and FINAL one after the other; then the reads of step 5, which show STATUS and
the digest string. -/
theorem protocolComputesTheDigest : Obligations.ProtocolComputesTheDigest := by
  intro s start wait ps r hp hev hstart hfollows hwait hturns
  obtain ⟨t, htakes, hrest, hdone, hacc⟩ := takes_hash hp hev hstart hfollows hwait hturns
  obtain ⟨hclean, hcleared⟩ := htakes.record
  obtain ⟨hbit1, hbit2⟩ := statusWord_bits t
  refine ⟨t, htakes.run, hdone, hacc, hrest, hclean, hcleared, statusWord t, (readOutWords r).map (readValue t), ?_, ?_,
    ?_, ?_⟩
  · have hanswers := answers_reads (s := t) (readOutWords_read r) t.readData
    rw [← readOutEvents_eq, ← hrest, List.map_cons, readValue_status] at hanswers
    rw [readOutEvents_eq, List.length_map]
    exact hanswers
  · rw [hbit1]
    exact decide_eq_true hdone
  · rw [errIsClear, hbit2]
  · rw [digestRead_readOut, hacc]

end Sys2Proof
end
